-- ==== Sys2Proof/Word.lean ====
section
/-! DEFINITION. The word types of the block: 32-bit registers, 8-bit buffer cells and register offsets, 4-bit hex digits (00_scope.md R10, R12). -/

namespace Sys2Proof

/-- A register, a buffer address or a length (R10). All values are unsigned (R12). -/
abbrev Word := BitVec 32

/-- A buffer memory cell (R10). -/
abbrev Byte := BitVec 8

/-- A register-window offset (R10, R22). -/
abbrev Offset := BitVec 8

/-- The value of one hex digit (R160). -/
abbrev Nibble := BitVec 4

end Sys2Proof
end

