-- ==== Sys2Proof/Config.lean ====
section
/-! DEFINITION. What an implementation fixes (MEM_SIZE, 00_scope.md R7) and the free values (`draw()`, R15). -/

namespace Sys2Proof

/-- DESIGN CHOICE (log entry 2): the `MEM_SIZE` that `State.reset` starts with, the one 95_test_vectors.md
uses (R7). `MEM_SIZE` itself is the State field `memSize`, and any other value may stand there. -/
def Config.resetMemSize : Word := 65536#32

/-- The k-th byte drawn (`draw()`, R15): any byte value, under no law (log entry 3). -/
opaque Config.freeByte : Nat → Byte

/-- The k-th free word, for a result register whose value the spec does not define (R245; log entries 3 and 7). -/
opaque Config.freeWord : Nat → Word

end Sys2Proof
end

