-- ==== Sys2Proof/Machine/State.lean ====
section
/-! DEFINITION. The state of the block as plain data (10_state.md), the names of its parts, its reset value, and the ways a step may stop. -/

namespace Sys2Proof.Machine

/-- The values of `ERR_CODE[3:0]` (60_exceptions.md R200). Codes 8 to 15 are never produced (log entry 13). -/
inductive ErrCode where
  /-- 0, NONE: success. -/
  | noError
  /-- 1, ILLEGAL_CMD. -/
  | illegalCmd
  /-- 2, BAD_WIDTH. -/
  | badWidth
  /-- 3, RANGE_SRC. -/
  | rangeSrc
  /-- 4, RANGE_DST. -/
  | rangeDst
  /-- 5, OVERLAP. -/
  | overlap
  /-- 6, DECODE_ODD_LENGTH. -/
  | decodeOddLength
  /-- 7, DECODE_BAD_CHAR. -/
  | decodeBadChar
  deriving DecidableEq, Repr

/-- The kinds of model-level fault recorded in `FAULTS` (60_exceptions.md R210). It does not stop the machine. -/
inductive FaultKind where
  /-- HAZARD_WRITE: a host memory write into a busy command's source or destination range (R240). -/
  | hazardWrite
  deriving DecidableEq, Repr

/-- The twelve registers of the register window (R22). -/
inductive RegName where
  | ctrl | status | cmd | srcAddr | srcLen | dstAddr | blockWidth
  | outLen | blockCount | padCount | errCode | errInfo
  deriving DecidableEq, Repr

/-- One host transaction (40_host_interface.md R110). -/
inductive HostTxn where
  /-- REG_READ (R111). -/
  | regRead (off : Offset)
  /-- REG_WRITE (R112). -/
  | regWrite (off : Offset) (v : Word)
  /-- MEM_READ (R115). -/
  | memRead (a : Word)
  /-- MEM_WRITE (R116). -/
  | memWrite (a : Word) (b : Byte)
  /-- HARD RESET (R230). -/
  | hardReset
  deriving DecidableEq, Repr

/-- Whose step comes next, and what the host does in it (R70, R110; log entry 1). -/
inductive Event where
  /-- A host step with its transaction. -/
  | host (t : HostTxn)
  /-- The engine's turn. -/
  | engine
  deriving DecidableEq, Repr

/-- The register window (R22). A bit or field that is RAZ/WI is not stored: it reads 0 (R16). -/
structure Regs where
  /-- `CTRL.IRQ_EN` (R23). -/
  irqEn : Bool
  /-- `STATUS.BUSY`, also the pending flag (R25, R36). -/
  busy : Bool
  /-- `STATUS.DONE` (R25). -/
  done : Bool
  /-- `STATUS.ERROR` (R25). -/
  error : Bool
  /-- `STATUS.OVERRUN` (R25). -/
  overrun : Bool
  /-- `CMD` (R24). -/
  cmd : Word
  /-- `SRC_ADDR` (R26). -/
  srcAddr : Word
  /-- `SRC_LEN` (R26). -/
  srcLen : Word
  /-- `DST_ADDR` (R27). -/
  dstAddr : Word
  /-- `BLOCK_WIDTH` (R28). -/
  blockWidth : Word
  /-- `OUT_LEN` (R29). -/
  outLen : Word
  /-- `BLOCK_COUNT` (R30). -/
  blockCount : Word
  /-- `PAD_COUNT` (R31). -/
  padCount : Word
  /-- `ERR_CODE` (R32). -/
  errCode : ErrCode
  /-- `ERR_INFO` (R32). -/
  errInfo : Word
  deriving DecidableEq, Repr

/-- The reset column of R22: `BLOCK_WIDTH` is 16, all else 0. -/
def Regs.reset : Regs where
  irqEn := false
  busy := false
  done := false
  error := false
  overrun := false
  cmd := 0
  srcAddr := 0
  srcLen := 0
  dstAddr := 0
  blockWidth := 0x00000010#32
  outLen := 0
  blockCount := 0
  padCount := 0
  errCode := .noError
  errInfo := 0

/-- The latch `L`, copied at issue (R35, R120). -/
structure Latch where
  cmd : Word
  srcAddr : Word
  srcLen : Word
  dstAddr : Word
  width : Word
  deriving DecidableEq, Repr

/-- The buffer memory (R40): the bytes that hold a value, by address. An unlisted address is an unspecified
byte, which every read draws afresh (R232; log entry 4). -/
abbrev Memory := List Host.Cell

/-- The canonical form: addresses strictly rising. An unlisted address reads as no value, so no entry can
equal what it reads as. -/
abbrev Memory.wf (m : Memory) : Prop := m.Pairwise (fun c d => c.1 < d.1)

/-- The machine. `memSize` is the parameter `MEM_SIZE`; `agenda`, `draws`, `regRdata` and `memRdata` are the
model's own fields (log entries 1, 3 and 6). -/
structure State where
  /-- The register window (R22). -/
  regs : Regs
  /-- The latch `L` (R35). -/
  latch : Latch
  /-- The buffer memory `M` (R40). -/
  mem : Memory
  /-- The set `FAULTS`, with no repeats (R37). -/
  faults : List FaultKind
  /-- `MEM_SIZE` (R7): no step writes it. -/
  memSize : Word
  /-- The steps still to come, first one first; when it is used up the engine has the turn (R70, R243). -/
  agenda : List Event
  /-- How many free values have been drawn (R15). -/
  draws : Nat
  /-- What `reg_rdata` last carried (R100). -/
  regRdata : Word
  /-- What `mem_rdata` last carried (R100). -/
  memRdata : Byte
  deriving DecidableEq, Repr

/-- The machine at power-on, after its hard reset (R41, R230, R37): every register at its reset value, every
buffer byte unspecified, `FAULTS` empty. -/
def State.reset : State where
  regs := Regs.reset
  latch := { cmd := 0, srcAddr := 0, srcLen := 0, dstAddr := 0, width := 0 }
  mem := []
  faults := []
  memSize := Config.resetMemSize
  agenda := []
  draws := 0
  regRdata := 0
  memRdata := 0

/-- Replaces the register window. -/
def State.setRegs (s : State) (r : Regs) : State := { s with regs := r }

/-- Replaces the latch. -/
def State.setLatch (s : State) (l : Latch) : State := { s with latch := l }

/-- Replaces the buffer memory. -/
def State.setMem (s : State) (m : Memory) : State := { s with mem := m }

/-- Replaces the fault set. -/
def State.setFaults (s : State) (f : List FaultKind) : State := { s with faults := f }

/-- Replaces the agenda. -/
def State.setAgenda (s : State) (es : List Event) : State := { s with agenda := es }

/-- Replaces the count of free values drawn. -/
def State.setDraws (s : State) (k : Nat) : State := { s with draws := k }

/-- Drives `reg_rdata`. -/
def State.setRegRdata (s : State) (v : Word) : State := { s with regRdata := v }

/-- Drives `mem_rdata`. -/
def State.setMemRdata (s : State) (b : Byte) : State := { s with memRdata := b }

/-- The reasons a step stops with a fault. There are none: the spec's errors are completion statuses (R205),
its hazard is recorded in `FAULTS` and the machine goes on (R116, R210), and every command completes (R125).
Nobody raises one. -/
inductive Fault where
  deriving DecidableEq, Repr

/-- The reasons a step is refused. -/
inductive Refusal where
  /-- An instruction the model gives no meaning, by its mnemonic. Raised by no arm of exec: every command has
  its meaning. It would be safe, since the machine stops there. -/
  | notModelled (mnemonic : String)
  deriving DecidableEq, Repr

end Sys2Proof.Machine
end

