-- ==== Sys2Proof/Machine/Flags.lean ====
section
/-! DEFINITION. The flags and register views: the `STATUS` and `CTRL` words, the W1C write, what issue and completion do to the status bits, the codes of `ERR_CODE`, and `irq` (10_state.md R23, R25, R32, R34; 60_exceptions.md R200, R206). -/

namespace Sys2Proof.Machine

/-- The word a register with the given low bits reads as, bit 0 first; all other bits read 0 (R16, R22). -/
def wordOfBits : List Bool → Word
  | [] => 0
  | b :: bs => (wordOfBits bs <<< 1) ||| (if b then 1#32 else 0#32)

/-- The value read at `CTRL`: `IRQ_EN` in bit 0; `SOFT_RESET` and the reserved bits read 0 (R23, R111). -/
def Regs.ctrlWord (r : Regs) : Word := wordOfBits [r.irqEn]

/-- The value read at `STATUS`: BUSY, DONE, ERROR and OVERRUN in bits 0 to 3; the rest reads 0 (R25). -/
def Regs.statusWord (r : Regs) : Word := wordOfBits [r.busy, r.done, r.error, r.overrun]

/-- The code in `ERR_CODE[3:0]` (R200); bits 31:4 read 0 (R32). -/
def ErrCode.toWord : ErrCode → Word
  | .noError => 0
  | .illegalCmd => 1
  | .badWidth => 2
  | .rangeSrc => 3
  | .rangeDst => 4
  | .overlap => 5
  | .decodeOddLength => 6
  | .decodeBadChar => 7

/-- The code of a three-bit value, each code once (R200): used only to draw a free code. -/
def ErrCode.ofBits (b : BitVec 3) : ErrCode :=
  if b = 0 then .noError
  else if b = 1 then .illegalCmd
  else if b = 2 then .badWidth
  else if b = 3 then .rangeSrc
  else if b = 4 then .rangeDst
  else if b = 5 then .overlap
  else if b = 6 then .decodeOddLength
  else .decodeBadChar

/-- `readval` of R111: the register's value with its reserved bits as 0. -/
def Regs.read (r : Regs) : RegName → Word
  | .ctrl => r.ctrlWord
  | .status => r.statusWord
  | .cmd => r.cmd
  | .srcAddr => r.srcAddr
  | .srcLen => r.srcLen
  | .dstAddr => r.dstAddr
  | .blockWidth => r.blockWidth
  | .outLen => r.outLen
  | .blockCount => r.blockCount
  | .padCount => r.padCount
  | .errCode => r.errCode.toWord
  | .errInfo => r.errInfo

/-- A write of v to `STATUS`: each W1C bit written as 1 is cleared; BUSY is unaffected (R25, R117). -/
def Regs.clearStatus (r : Regs) (v : Word) : Regs :=
  { r with
    done := r.done && !v.getLsbD 1
    error := r.error && !v.getLsbD 2
    overrun := r.overrun && !v.getLsbD 3 }

/-- The status bits after issue (R120): BUSY set, DONE and ERROR cleared, OVERRUN kept. -/
def Regs.beginBusy (r : Regs) : Regs := { r with busy := true, done := false, error := false }

/-- The status bits after a completion (R25, R203, R204): BUSY cleared, DONE set, ERROR as the command
failed or not, OVERRUN kept. -/
def Regs.endBusy (r : Regs) (failed : Bool) : Regs := { r with busy := false, done := true, error := failed }

/-- The interrupt output, `CTRL.IRQ_EN AND STATUS.DONE` (R38, R206). -/
def State.irq (s : State) : Bool := s.regs.irqEn && s.regs.done

end Sys2Proof.Machine
end

