-- ==== Sys2Proof/Syntax.lean ====
section
/-! DEFINITION. The commands: one constructor per row of spec/opcode_table.json (30_encoding.md R92, R93). The operands of a command are not in its word: they come from the latch (R91). -/

namespace Sys2Proof

/-- What a command word decodes to (R94). -/
inductive Instr where
  /-- SEGMENT, 41_segment.md R140. -/
  | segment
  /-- HEX_ENCODE, 42_hex_codec.md R163. -/
  | hexEncode
  /-- HEX_DECODE, 42_hex_codec.md R170. -/
  | hexDecode
  /-- ILLEGAL: any word that R92 does not list. It carries the whole word, which completion reports (R93). -/
  | illegal (word : Word)
  deriving DecidableEq, Repr

end Sys2Proof
end

