-- ==== Sys2Proof/WellFormed.lean ====
section
/-! DEFINITION. Which terms of Instr stand for a command word (30_encoding.md R92, R93). -/

namespace Sys2Proof

/-- A term is well formed when some word decodes to it: an illegal command carries a word that is none of R92's three. -/
def Instr.wf : Instr → Bool
  | .segment => true
  | .hexEncode => true
  | .hexDecode => true
  | .illegal w => w != 0x00000001#32 && w != 0x00000002#32 && w != 0x00000003#32

end Sys2Proof
end

