-- ==== Sys2Proof/Decode.lean ====
section
/-! DEFINITION. Decoding and encoding of the 32-bit command word (30_encoding.md R90 to R95), and the host's numbering of a table row's bits. -/

namespace Sys2Proof

/-- The field `OP`, bits 7:0 of a command word (R90). -/
def opField (c : Word) : BitVec 8 := c.extractLsb' 0 8

/-- The field `Z`, bits 31:8 of a command word (R90). -/
def zField (c : Word) : BitVec 24 := c.extractLsb' 8 24

/-- Decoding, total on every word (R94). A word matches only with every bit (R92); all others are ILLEGAL (R93). -/
def decode (c : Word) : Instr :=
  if c = 0x00000001#32 then .segment
  else if c = 0x00000002#32 then .hexEncode
  else if c = 0x00000003#32 then .hexDecode
  else .illegal c

/-- The command word of an instruction (R92; for ILLEGAL the word itself, R93). -/
def encode : Instr → Word
  | .segment => 0x00000001#32
  | .hexEncode => 0x00000002#32
  | .hexDecode => 0x00000003#32
  | .illegal w => w

/-- The command word whose low `nbits` bits are those of `w` and whose other bits are 0. A command is one
word delivered whole (R95), so a row's bit k is the word's bit k. -/
def tableWord (nbits w : Nat) : Word := BitVec.ofNat 32 (w % 2 ^ (min nbits 32))

/-- What the decoder reads from a table row's bits. It refuses nothing: decoding is total (R94). -/
def decodeTableWord (nbits w : Nat) : Option Instr := some (decode (tableWord nbits w))

end Sys2Proof
end

