-- ==== Sys2Proof/Machine/Operands.lean ====
section
/-! DEFINITION. The operand forms: ranges of the buffer memory and the lengths computed from the latch (00_scope.md R13, 20_memory.md R62 and R64, 70_reset_and_hazards.md R241). Arithmetic is on unbounded naturals (R13). -/

namespace Sys2Proof.Machine

/-- `ceil_div(a, w)` for `w > 0` (R13). -/
def ceilDiv (a w : Nat) : Nat := (a + w - 1) / w

/-- SEGMENT's output length for n bytes and width w, `bc * w` (R140). -/
abbrev paddedLen (n w : Nat) : Nat := ceilDiv n w * w

/-- `inrange(a, n)`: the range of n bytes from a is legal (R62). -/
abbrev inRange (memSize a n : Nat) : Prop := n = 0 ∨ a + n ≤ memSize

/-- `overlap(s, ns, d, nd)`: both ranges are non-empty and share a byte (R64). -/
abbrev overlaps (s ns d nd : Nat) : Prop := 0 < ns ∧ 0 < nd ∧ s < d + nd ∧ d < s + ns

/-- The address a lies in the n bytes from `base`, below `MEM_SIZE` (the sets of R241). -/
abbrev inBytes (memSize base n a : Nat) : Prop := base ≤ a ∧ a < base + n ∧ a < memSize

/-- `out_len(L)` of R241 for the command i with the latch l: the bytes i writes when it succeeds. -/
def outLenOf (i : Instr) (l : Latch) : Nat :=
  match i with
  | .segment => if l.width.toNat = 0 then 0 else paddedLen l.srcLen.toNat l.width.toNat
  | .hexEncode => 2 * l.srcLen.toNat
  | .hexDecode => if l.srcLen.toNat % 2 = 1 then 0 else l.srcLen.toNat / 2
  | .illegal _ => 0

/-- `out_len(L)` of the latched command (R241). -/
def Latch.outLen (l : Latch) : Nat := outLenOf (decode l.cmd) l

/-- `L.src_addr` as a number (R13). -/
abbrev State.src (s : State) : Nat := s.latch.srcAddr.toNat

/-- `L.src_len` as a number (R13). -/
abbrev State.len (s : State) : Nat := s.latch.srcLen.toNat

/-- `L.dst_addr` as a number (R13). -/
abbrev State.dst (s : State) : Nat := s.latch.dstAddr.toNat

/-- `L.width` as a number (R13). -/
abbrev State.width (s : State) : Nat := s.latch.width.toNat

/-- `MEM_SIZE` as a number (R7). -/
abbrev State.size (s : State) : Nat := s.memSize.toNat

/-- `a in src_range(L)` (R241). -/
abbrev State.inSrcRange (s : State) (a : Nat) : Prop :=
  inBytes s.size s.src s.len a

/-- `a in dst_range(L)` (R241). -/
abbrev State.inDstRange (s : State) (a : Nat) : Prop :=
  inBytes s.size s.dst s.latch.outLen a

end Sys2Proof.Machine
end

