-- ==== Sys2Proof/Machine/Ops.lean ====
section
/-! DEFINITION. The named operations over memory, free values, the fault set, command issue, completion and reset. The block takes no exception (60_exceptions.md R205): an error is the completion `State.completeErr`, shared by every command. -/

namespace Sys2Proof.Machine

/-- The value held at address a; none for an unspecified byte (R40, R232). -/
def Memory.read : Memory → Nat → Option Byte
  | [], _ => none
  | c :: m, a => if c.1 = a then some c.2 else Memory.read m a

/-- `M[a] <- b` (R15), keeping the canonical form. -/
def Memory.write : Memory → Nat → Byte → Memory
  | [], a, b => [(a, b)]
  | c :: m, a, b =>
    if a < c.1 then (a, b) :: c :: m
    else if a = c.1 then (a, b) :: m
    else c :: Memory.write m a b

/-- `MemWrite(a, n, s)` with n = len(s) (R15): element i goes to address a + i (R60). -/
def Memory.writeList : Memory → Nat → List Byte → Memory
  | m, _, [] => m
  | m, a, b :: bs => Memory.writeList (m.write a b) (a + 1) bs

/-- The n bytes from a become unspecified (R231, R232). -/
def Memory.forget (m : Memory) (a n : Nat) : Memory :=
  m.filter (fun c => !(decide (a ≤ c.1) && decide (c.1 < a + n)))

/-- `MemRead(a, n)` (R15) with k free values drawn before: the bytes, in address order, and the count
afterwards. Each unspecified byte is one draw (R232; log entry 11). -/
def Memory.readList (m : Memory) : Nat → Nat → Nat → List Byte × Nat
  | _, 0, k => ([], k)
  | a, n + 1, k =>
    match m.read a with
    | some b => (b :: (Memory.readList m (a + 1) n k).1, (Memory.readList m (a + 1) n k).2)
    | none =>
      (Config.freeByte k :: (Memory.readList m (a + 1) n (k + 1)).1, (Memory.readList m (a + 1) n (k + 1)).2)

/-- The value of the buffer byte a, none if it is unspecified. -/
def State.byteAt (s : State) (a : Nat) : Option Byte := s.mem.read a

/-- The bytes of the latched source range, as the engine reads them (R63). -/
def State.sourceBytes (s : State) : List Byte :=
  (s.mem.readList s.src s.len s.draws).1

/-- The machine after the engine has read its source range: only the draws taken for unspecified bytes are
counted (R66, R232). -/
def State.afterSource (s : State) : State :=
  s.setDraws (s.mem.readList s.src s.len s.draws).2

/-- A command's `MemWrite` of its whole destination range (R63). -/
def State.writeDest (s : State) (bytes : List Byte) : State :=
  s.setMem (s.mem.writeList s.dst bytes)

/-- One `draw()` by a host read (R15): the value goes to `mem_rdata`. -/
def State.drawToHost (s : State) : State :=
  (s.setMemRdata (Config.freeByte s.draws)).setDraws (s.draws + 1)

/-- `raise Fault(kind)`: adds the kind to `FAULTS` (R210). -/
def State.raise (s : State) (k : FaultKind) : State :=
  s.setFaults (if k ∈ s.faults then s.faults else s.faults ++ [k])

/-- ISSUE of the word c (R120): `CMD` and the latch are written, BUSY is set, DONE and ERROR are cleared. -/
def State.issue (s : State) (c : Word) : State :=
  (s.setLatch
    { cmd := c
      srcAddr := s.regs.srcAddr
      srcLen := s.regs.srcLen
      dstAddr := s.regs.dstAddr
      width := s.regs.blockWidth }).setRegs
    ({ s.regs with cmd := c }).beginBusy

/-- A completion in a run whose `FAULTS` is not empty: the command ends, but its results are not defined
(R116, R210, R245; log entry 7). The five result registers are free values (the code one of R200's eight, and
ERROR says whether it is an error, R25), and the bytes of `dst_range(L)` are unspecified. -/
def State.completeUndefined (s : State) : State :=
  ((s.setMem (s.mem.forget s.dst s.latch.outLen)).setDraws (s.draws + 5)).setRegs
    (({ s.regs with
        errCode := ErrCode.ofBits ((Config.freeByte s.draws).extractLsb' 0 3)
        outLen := Config.freeWord (s.draws + 1)
        blockCount := Config.freeWord (s.draws + 2)
        padCount := Config.freeWord (s.draws + 3)
        errInfo := Config.freeWord (s.draws + 4) }).endBusy
      (ErrCode.ofBits ((Config.freeByte s.draws).extractLsb' 0 3) != ErrCode.noError))

/-- `complete_ok(out, bc, pad)` (R203). The range checks make the three values fit in 32 bits (R13, R149). -/
def State.completeOk (s : State) (out bc pad : Nat) : State :=
  if s.faults = [] then
    s.setRegs
      (({ s.regs with
          outLen := BitVec.ofNat 32 out
          blockCount := BitVec.ofNat 32 bc
          padCount := BitVec.ofNat 32 pad
          errCode := .noError
          errInfo := 0 }).endBusy false)
  else s.completeUndefined

/-- `complete_err(code, info)` (R204): no buffer byte changes. -/
def State.completeErr (s : State) (code : ErrCode) (info : Word) : State :=
  if s.faults = [] then
    s.setRegs
      (({ s.regs with
          outLen := 0
          blockCount := 0
          padCount := 0
          errCode := code
          errInfo := info }).endBusy true)
  else s.completeUndefined

/-- SOFT RESET (R231): registers to their reset values; the destination range of an aborted command becomes
unspecified; all other memory, `FAULTS` and the unreadable latch are left. -/
def State.softReset (s : State) : State :=
  (if s.regs.busy then s.setMem (s.mem.forget s.dst s.latch.outLen) else s).setRegs Regs.reset

/-- HARD RESET (R230): registers to their reset values, every buffer byte unspecified, `FAULTS` unchanged. -/
def State.hardReset (s : State) : State := (s.setMem []).setRegs Regs.reset

/-- Whose step comes next; with the agenda used up, the engine's (R70, R243; log entries 1 and 9). -/
def State.turn (s : State) : Event :=
  match s.agenda with
  | [] => .engine
  | e :: _ => e

/-- The machine with the turn taken off its agenda. -/
def State.popTurn (s : State) : State := s.setAgenda s.agenda.tail

/-- The instruction of the command in flight, read from the latch (R94, R125). -/
def State.latched (s : State) : Instr := decode s.latch.cmd

end Sys2Proof.Machine
end

