-- ==== Sys2Proof/Machine/HexCodec.lean ====
section
/-! DEFINITION. HEX_ENCODE and HEX_DECODE, the hex codec (42_hex_codec.md R160 to R176). -/

namespace Sys2Proof.Machine

/-- `HEXLC` (R160): the lowercase ASCII digit of a nibble. -/
def hexLc (v : Nibble) : Byte :=
  if v ≤ 9 then 0x30 + v.setWidth 8 else 0x61 + (v.setWidth 8 - 10)

/-- `HEXVAL` (R161): the value of an ASCII hex digit of either case, none for the other 234 bytes. -/
def hexVal (c : Byte) : Option Nibble :=
  if 0x30 ≤ c ∧ c ≤ 0x39 then some ((c - 0x30).setWidth 4)
  else if 0x41 ≤ c ∧ c ≤ 0x46 then some ((c - 0x41 + 10).setWidth 4)
  else if 0x61 ≤ c ∧ c ≤ 0x66 then some ((c - 0x61 + 10).setWidth 4)
  else none

/-- The text of a byte sequence: for each byte the high nibble's digit, then the low nibble's (R162, R163). -/
def hexText : List Byte → List Byte
  | [] => []
  | b :: bs => hexLc (b.extractLsb' 4 4) :: hexLc (b.extractLsb' 0 4) :: hexText bs

/-- The digit values of a text whose first byte has index i, or the index of its first non-hex byte (R172). -/
def digitValues : Nat → List Byte → Except Nat (List Nibble)
  | _, [] => .ok []
  | i, c :: cs =>
    match hexVal c with
    | none => .error i
    | some v =>
      match digitValues (i + 1) cs with
      | .error j => .error j
      | .ok vs => .ok (v :: vs)

/-- The bytes of a sequence of digit values, the high digit of each pair first (R162, R170). A lone last
value, which an even length rules out (R171), gives nothing. -/
def pairDigits : List Nibble → List Byte
  | hi :: lo :: vs => (hi ++ lo) :: pairDigits vs
  | [_] => []
  | [] => []

/-- HEX_ENCODE (`enc_exec`, R163): the checks RANGE_SRC, RANGE_DST and OVERLAP in that order, then the text. -/
def execHexEncode (s : State) : Host.Outcome State Fault Refusal :=
  if ¬ inRange s.size s.src s.len then .next (s.completeErr .rangeSrc 0)
  else if ¬ inRange s.size s.dst (2 * s.len) then .next (s.completeErr .rangeDst 0)
  else if overlaps s.src s.len s.dst (2 * s.len) then .next (s.completeErr .overlap 0)
  else .next ((s.afterSource.writeDest (hexText s.sourceBytes)).completeOk (2 * s.len) 0 0)

/-- HEX_DECODE (`dec_exec`, R170): the checks DECODE_ODD_LENGTH, RANGE_SRC, RANGE_DST, OVERLAP and
DECODE_BAD_CHAR in that order, then the bytes. The whole text is read and checked before any write (R172). -/
def execHexDecode (s : State) : Host.Outcome State Fault Refusal :=
  if s.len % 2 = 1 then .next (s.completeErr .decodeOddLength s.latch.srcLen)
  else if ¬ inRange s.size s.src s.len then .next (s.completeErr .rangeSrc 0)
  else if ¬ inRange s.size s.dst (s.len / 2) then .next (s.completeErr .rangeDst 0)
  else if overlaps s.src s.len s.dst (s.len / 2) then .next (s.completeErr .overlap 0)
  else
    match digitValues 0 s.sourceBytes with
    | .error i => .next (s.afterSource.completeErr .decodeBadChar (BitVec.ofNat 32 i))
    | .ok vs => .next ((s.afterSource.writeDest (pairDigits vs)).completeOk (s.len / 2) 0 0)

end Sys2Proof.Machine
end

