-- ==== Sys2Proof/Machine/Illegal.lean ====
section
/-! DEFINITION. ILLEGAL, every command word that 30_encoding.md R92 does not list (R93). -/

namespace Sys2Proof.Machine

/-- ILLEGAL (R93, R125): completes with ILLEGAL_CMD and the word in `ERR_INFO`. The word is the latched one,
since the engine decodes the latch and the decoder keeps the word (log entry 8). -/
def execIllegal (word : Word) (s : State) : Host.Outcome State Fault Refusal :=
  .next (s.completeErr .illegalCmd word)

end Sys2Proof.Machine
end

