-- ==== Sys2Proof/Machine/Segment.lean ====
section
/-! DEFINITION. SEGMENT, the block segmenter (41_segment.md R140 to R152). -/

namespace Sys2Proof.Machine

/-- SEGMENT's padding count for n bytes and width w, `out - n` (R140, R143). -/
def padOf (n w : Nat) : Nat := paddedLen n w - n

/-- SEGMENT (`seg_exec`, R140): the checks BAD_WIDTH, RANGE_SRC, RANGE_DST and OVERLAP in that order (not
OVERLAP in place, R147), then the data followed by the zeros that fill its last block (R144). -/
def execSegment (s : State) : Host.Outcome State Fault Refusal :=
  if s.width = 0 then .next (s.completeErr .badWidth 0)
  else if ¬ inRange s.size s.src s.len then .next (s.completeErr .rangeSrc 0)
  else if ¬ inRange s.size s.dst (paddedLen s.len s.width) then .next (s.completeErr .rangeDst 0)
  else if overlaps s.src s.len s.dst (paddedLen s.len s.width) ∧ s.src ≠ s.dst then
    .next (s.completeErr .overlap 0)
  else
    .next ((s.afterSource.writeDest (s.sourceBytes ++ List.replicate (padOf s.len s.width) 0#8)).completeOk
      (paddedLen s.len s.width) (ceilDiv s.len s.width) (padOf s.len s.width))

end Sys2Proof.Machine
end

