-- ==== Sys2Proof/Machine/Dispatch.lean ====
section
/-! DEFINITION. COMPLETE's case split: one arm per command (40_host_interface.md R125). -/

namespace Sys2Proof.Machine

/-- The engine's step on the command i (R125). -/
def exec (i : Instr) (s : State) : Host.Outcome State Fault Refusal :=
  match i with
  | .segment => Sys2Proof.Machine.execSegment s
  | .hexEncode => Sys2Proof.Machine.execHexEncode s
  | .hexDecode => Sys2Proof.Machine.execHexDecode s
  | .illegal word => Sys2Proof.Machine.execIllegal word s

end Sys2Proof.Machine
end

