-- ==== Sys2Proof/Machine/HostPort.lean ====
section
/-! DEFINITION. The host's transactions on the register port and the memory port (40_host_interface.md R110 to R121, 70_reset_and_hazards.md R230). -/

namespace Sys2Proof.Machine

/-- The register at an offset (R22); none where the offset is RAZ/WI: bits 1:0 not 00, or 0x30 and above (R113). -/
def RegName.ofOffset (off : Offset) : Option RegName :=
  if off = 0x00 then some .ctrl
  else if off = 0x04 then some .status
  else if off = 0x08 then some .cmd
  else if off = 0x0C then some .srcAddr
  else if off = 0x10 then some .srcLen
  else if off = 0x14 then some .dstAddr
  else if off = 0x18 then some .blockWidth
  else if off = 0x1C then some .outLen
  else if off = 0x20 then some .blockCount
  else if off = 0x24 then some .padCount
  else if off = 0x28 then some .errCode
  else if off = 0x2C then some .errInfo
  else none

/-- REG_READ (R111): `reg_rdata` gets the register's value, 0 at a RAZ/WI offset. -/
def State.regRead (s : State) (off : Offset) : State :=
  match RegName.ofOffset off with
  | none => s.setRegRdata 0
  | some r => s.setRegRdata (s.regs.read r)

/-- A CTRL write (R118): with bit 1 the soft reset and nothing else, otherwise `IRQ_EN` from bit 0. -/
def State.writeCtrl (s : State) (v : Word) : State :=
  if v.getLsbD 1 then s.softReset else s.setRegs { s.regs with irqEn := v.getLsbD 0 }

/-- A CMD write: ISSUE while BUSY = 0 (R120), OVERRUN while BUSY = 1 (R121). -/
def State.writeCmd (s : State) (c : Word) : State :=
  if s.regs.busy then s.setRegs { s.regs with overrun := true } else s.issue c

/-- A write of v to the register r (R112): the result registers ignore it (RO). -/
def State.writeReg (s : State) (r : RegName) (v : Word) : State :=
  match r with
  | .ctrl => s.writeCtrl v
  | .status => s.setRegs (s.regs.clearStatus v)
  | .cmd => s.writeCmd v
  | .srcAddr => s.setRegs { s.regs with srcAddr := v }
  | .srcLen => s.setRegs { s.regs with srcLen := v }
  | .dstAddr => s.setRegs { s.regs with dstAddr := v }
  | .blockWidth => s.setRegs { s.regs with blockWidth := v }
  | .outLen => s
  | .blockCount => s
  | .padCount => s
  | .errCode => s
  | .errInfo => s

/-- REG_WRITE (R112): a RAZ/WI offset ignores it (R113). -/
def State.regWrite (s : State) (off : Offset) (v : Word) : State :=
  match RegName.ofOffset off with
  | none => s
  | some r => s.writeReg r v

/-- MEM_READ (R115): 0 at or above `MEM_SIZE`; a draw in a busy command's destination range; otherwise the
byte, a draw where it is unspecified (R232). -/
def State.memRead (s : State) (a : Word) : State :=
  if s.size ≤ a.toNat then s.setMemRdata 0
  else if s.regs.busy = true ∧ s.inDstRange a.toNat then s.drawToHost
  else
    match s.byteAt a.toNat with
    | some b => s.setMemRdata b
    | none => s.drawToHost

/-- MEM_WRITE (R116): nothing at or above `MEM_SIZE`; a write into a busy command's ranges records
HAZARD_WRITE and is still performed. -/
def State.memWrite (s : State) (a : Word) (b : Byte) : State :=
  if s.size ≤ a.toNat then s
  else
    let s' :=
      if s.regs.busy = true ∧ (s.inSrcRange a.toNat ∨ s.inDstRange a.toNat) then s.raise .hazardWrite else s
    s'.setMem (s.mem.write a.toNat b)

/-- One host step (R110). -/
def hostStep (t : HostTxn) (s : State) : State :=
  match t with
  | .regRead off => s.regRead off
  | .regWrite off v => s.regWrite off v
  | .memRead a => s.memRead a
  | .memWrite a b => s.memWrite a b
  | .hardReset => s.hardReset

end Sys2Proof.Machine
end

