-- ==== Sys2Proof/Machine/Step.lean ====
section
/-! DEFINITION. One step of the block: the host's transaction or the engine's turn, in the order of the agenda (20_memory.md R70, 40_host_interface.md R110 and R125). -/

namespace Sys2Proof.Machine

/-- The engine's turn: COMPLETE if BUSY = 1 (R125); no step if BUSY = 0 (R36; log entry 9). -/
def engineTurn (s : State) : Host.Outcome State Fault Refusal :=
  if s.regs.busy then exec s.latched s else .next s

/-- One step: whoever has the turn takes it. -/
def step (s : State) : Host.Outcome State Fault Refusal :=
  match s.turn with
  | .host t => .next (hostStep t s.popTurn)
  | .engine => engineTurn s.popTurn

/-- The machine with the command whose word has the low bits of `w` issued and the engine's turn next, so that
the very next step runs it (log entry 10). The block fetches nothing: a command comes by a CMD write (R21, R75). -/
def State.withFetchWord (s : State) (nbits w : Nat) : State :=
  (s.issue (tableWord nbits w)).setAgenda (.engine :: s.agenda)

end Sys2Proof.Machine
end

