-- ==== Sys2Proof/Machine/HostProgram.lean ====
section
/-! DEFINITION. The host-program notation as lists of transactions (30_encoding.md R96, R97): what a program puts on the agenda. -/

namespace Sys2Proof.Machine

/-- `mw ADDR, B0 B1 ...`: one memory write a byte, upwards from a (R96). DESIGN CHOICE (log entry 18): past
0xFFFFFFFF, where the spec gives no transaction (R13, R116), the address goes on at 0. -/
def mwTxns : Word → List Byte → List HostTxn
  | _, [] => []
  | a, b :: bs => .memWrite a b :: mwTxns (a + 1) bs

/-- `mr ADDR, N`: n memory reads, upwards from a (R96). DESIGN CHOICE (log entry 18): past 0xFFFFFFFF, where the
spec gives no transaction (R13, R115), the address goes on at 0. -/
def mrTxns : Word → Nat → List HostTxn
  | _, 0 => []
  | a, n + 1 => .memRead a :: mrTxns (a + 1) n

/-- `issue`: the CMD write of the command's word (R97). -/
def issueTxn (i : Instr) : HostTxn := .regWrite 0x08 (encode i)

/-- n turns of `wait`: reads of STATUS, which the host repeats until bit 0 is 0 (R97; log entry 15). -/
def waitTxns (n : Nat) : List HostTxn := List.replicate n (.regRead 0x04)

/-- `wait` may end: the STATUS word read last has BUSY = 0 (R97). -/
def State.waitOver (s : State) : Bool := !s.regRdata.getLsbD 0

/-- `ack`: clears DONE and ERROR (R97). -/
def ackTxn : HostTxn := .regWrite 0x04 0x00000006#32

/-- `setup S, N, D` (R97). -/
def setupTxns (src len dst : Word) : List HostTxn :=
  [.regWrite 0x0C src, .regWrite 0x10 len, .regWrite 0x14 dst]

/-- `width W` (R97). -/
def widthTxn (w : Word) : HostTxn := .regWrite 0x18 w

/-- The agenda of a list of host transactions with no engine turn between them (R110). -/
def hostTurns (xs : List HostTxn) : List Event := xs.map .host

end Sys2Proof.Machine
end

