-- ==== Sys2Proof/Safety.lean ====
section
/-! DEFINITION. What counts as a good run, the invariants of the machine, and the vocabulary of frames, in the terms the statements use. -/

namespace Sys2Proof.Machine

/-- A good run so far: no hazard has been recorded, so completions have defined results (R210, R245). -/
abbrev State.good (s : State) : Prop := s.faults = []

/-- The buffer memory is in its canonical form and holds no byte at or above `MEM_SIZE` (R40, R67). -/
abbrev State.memOk (s : State) : Prop :=
  s.mem.wf ∧ ∀ c ∈ s.mem, c.1 < s.size

/-- The status bits agree with each other and with the latch: while a command is in flight DONE and ERROR are 0
(R120) and `CMD` is the latched word (R24, R121); ERROR stands only with an error code (R203, R204). -/
abbrev State.statusOk (s : State) : Prop :=
  (s.regs.busy = true → s.regs.done = false ∧ s.regs.error = false ∧ s.regs.cmd = s.latch.cmd) ∧
  (s.regs.error = true → s.regs.errCode ≠ .noError)

/-- The result registers of a good run: an error reports no output, a success no info, and the reported output
fits in the buffer memory (R29 to R32, R203, R204). -/
abbrev State.resultsOk (s : State) : Prop :=
  s.good →
    (s.regs.errCode ≠ .noError → s.regs.outLen = 0 ∧ s.regs.blockCount = 0 ∧ s.regs.padCount = 0) ∧
    (s.regs.errCode = .noError → s.regs.errInfo = 0) ∧
    s.regs.outLen ≤ s.memSize ∧ s.regs.blockCount ≤ s.regs.outLen ∧ s.regs.padCount ≤ s.regs.outLen

/-- The invariant of the machine: MEM_SIZE is a size (R7), memory, status and results are as above, and
`FAULTS` repeats no kind (R37). -/
abbrev State.Inv (s : State) : Prop :=
  s.memSize ≠ 0 ∧ s.memOk ∧ s.statusOk ∧ s.resultsOk ∧ s.faults.Nodup

/-- Every buffer byte outside the n bytes from a reads in t as in s. -/
abbrev State.sameBytesOutside (s t : State) (a n : Nat) : Prop :=
  ∀ x, ¬ (a ≤ x ∧ x < a + n) → t.byteAt x = s.byteAt x

/-- What no engine step changes (R21, R33, R203, R204): `CTRL`, OVERRUN, `CMD` and the operand registers, the
latch, `FAULTS`, `MEM_SIZE`, the agenda and the read ports. -/
abbrev State.sameHostSide (s t : State) : Prop :=
  t.regs.irqEn = s.regs.irqEn ∧ t.regs.overrun = s.regs.overrun ∧ t.regs.cmd = s.regs.cmd ∧
  t.regs.srcAddr = s.regs.srcAddr ∧ t.regs.srcLen = s.regs.srcLen ∧ t.regs.dstAddr = s.regs.dstAddr ∧
  t.regs.blockWidth = s.regs.blockWidth ∧ t.latch = s.latch ∧ t.faults = s.faults ∧
  t.memSize = s.memSize ∧ t.agenda = s.agenda ∧ t.regRdata = s.regRdata ∧ t.memRdata = s.memRdata

/-- The five result registers are the same (R33). -/
abbrev State.sameResults (s t : State) : Prop :=
  t.regs.outLen = s.regs.outLen ∧ t.regs.blockCount = s.regs.blockCount ∧
  t.regs.padCount = s.regs.padCount ∧ t.regs.errCode = s.regs.errCode ∧ t.regs.errInfo = s.regs.errInfo

/-- t has the status of a completion, failed or not (R25), and reports these values (R33). -/
abbrev State.reports (t : State) (failed : Bool) (out bc pad : Nat) (code : ErrCode) (info : Word) : Prop :=
  t.regs.busy = false ∧ t.regs.done = true ∧ t.regs.error = failed ∧
  t.regs.outLen.toNat = out ∧ t.regs.blockCount.toNat = bc ∧ t.regs.padCount.toNat = pad ∧
  t.regs.errCode = code ∧ t.regs.errInfo = info

/-- The failed completion of a good run, whole: t is s but for the status bits and the result registers, so
every buffer byte keeps its value (R204). -/
abbrev State.failsAs (s t : State) (code : ErrCode) (info : Word) : Prop :=
  t = { s with regs := { s.regs with
          busy := false, done := true, error := true,
          outLen := 0, blockCount := 0, padCount := 0, errCode := code, errInfo := info } }

/-- The buffer byte x may hold b: it holds b, or it is unspecified and every value may be read (R232). -/
abbrev State.mayRead (s : State) (x : Nat) (b : Byte) : Prop := ∀ c, s.byteAt x = some c → b = c

/-- A SEGMENT passes its checks in a good run (R140, R245). -/
abbrev State.segmentRuns (s : State) : Prop :=
  s.good ∧ s.width ≠ 0 ∧ inRange s.size s.src s.len ∧
  inRange s.size s.dst (paddedLen s.len s.width) ∧
  (overlaps s.src s.len s.dst (paddedLen s.len s.width) → s.src = s.dst)

/-- A HEX_ENCODE passes its checks in a good run (R163, R245). -/
abbrev State.hexEncodeRuns (s : State) : Prop :=
  s.good ∧ inRange s.size s.src s.len ∧ inRange s.size s.dst (2 * s.len) ∧
  ¬ overlaps s.src s.len s.dst (2 * s.len)

/-- A HEX_DECODE passes the checks made before its text is read, in a good run (R170, R245). -/
abbrev State.hexDecodeReads (s : State) : Prop :=
  s.good ∧ s.len % 2 = 0 ∧ inRange s.size s.src s.len ∧ inRange s.size s.dst (s.len / 2) ∧
  ¬ overlaps s.src s.len s.dst (s.len / 2)

end Sys2Proof.Machine
end

