-- ==== Sys2Proof/Certificates/Slice0/Obligations.lean ====
section
/-! DEFINITION. The statements for the provers, each about every state and every operand (one def Obligations.<Name> per statement). -/

open Sys2Proof Sys2Proof.Machine
open Host.Outcome (next)

/-! ### Decoding -/

/-- R92, R94: the three command words, and that every other word is ILLEGAL. -/
def Obligations.CommandWordsDecode : Prop :=
  decode 0x00000001#32 = .segment ∧ decode 0x00000002#32 = .hexEncode ∧ decode 0x00000003#32 = .hexDecode ∧
  ∀ c : Word, c ≠ 0x00000001#32 → c ≠ 0x00000002#32 → c ≠ 0x00000003#32 → decode c = .illegal c

/-- R92 to R94: decoding and encoding are inverse on well-formed instructions and on all words. -/
def Obligations.DecodeEncodeAgree : Prop :=
  (∀ i : Instr, i.wf = true → decode (encode i) = i) ∧
  (∀ c : Word, (decode c).wf = true ∧ encode (decode c) = c)

/-- R90, R93: a word is illegal exactly when `Z` is not 0 or `OP` is none of 1, 2 and 3. -/
def Obligations.IllegalByFields : Prop :=
  ∀ c : Word, decode c = .illegal c ↔ zField c ≠ 0 ∨ (opField c ≠ 1 ∧ opField c ≠ 2 ∧ opField c ≠ 3)

/-! ### The step -/

/-- R36, R94, R125: on the engine's turn a busy block runs the latched command, and an idle one does nothing.
The order of turns and the idle turn are the model's choice (log entries 1 and 9). -/
def Obligations.StepRunsLatchedCommand : Prop :=
  ∀ s : State, (∀ x r, s.agenda ≠ .host x :: r) →
    (s.regs.busy = true → step s = exec (decode s.latch.cmd) { s with agenda := s.agenda.tail }) ∧
    (s.regs.busy = false → step s = next { s with agenda := s.agenda.tail })

/-- R110: on the host's turn the step is the host's transaction, whether or not BUSY = 1. -/
def Obligations.StepRunsHostTransaction : Prop :=
  ∀ (s : State) (x : HostTxn) (r : List Event), s.agenda = .host x :: r →
    step s = next (hostStep x { s with agenda := r })

/-- R93, R125: no step stops the machine, in any state. -/
def Obligations.EveryStepCompletes : Prop :=
  ∀ s : State, ∃ t, step s = next t

/-- R243: every run of a finite agenda ends idle: once the host's turns are used up the engine has the turn
(the model's form of weak fairness, log entry 9). -/
def Obligations.EveryRunEndsIdle : Prop :=
  ∀ s : State, ∃ t, Host.Core.run core (s.agenda.length + 1) s = next t ∧
    t.regs.busy = false ∧ t.agenda = []

/-! ### Reset and invariants -/

/-- The invariant holds at reset. -/
def Obligations.ResetMeetsInv : Prop := State.reset.Inv

/-- Every step keeps the invariant. -/
def Obligations.StepKeepsInv : Prop :=
  ∀ s t : State, s.Inv → step s = next t → t.Inv

/-- R37: the fault set is empty at power-on, no step clears a fault from it, and no register read shows it. -/
def Obligations.FaultsNeverCleared : Prop :=
  State.reset.faults = [] ∧
  (∀ s t : State, step s = next t → ∀ k ∈ s.faults, k ∈ t.faults) ∧
  (∀ (s : State) (f : List FaultKind) (off : Offset),
    (hostStep (.regRead off) { s with faults := f }).regRdata = (hostStep (.regRead off) s).regRdata)

/-- R7: `MEM_SIZE` is a parameter: no step changes it. -/
def Obligations.MemSizeNeverChanges : Prop :=
  ∀ s t : State, step s = next t → t.memSize = s.memSize

/-- R230: hard reset, whole: the register values of R22, every byte unspecified, `irq` 0, and
nothing else but the latch, of which nothing is said. -/
def Obligations.HardResetValues : Prop :=
  ∀ s : State,
    (hostStep .hardReset s).regs.read .blockWidth = 16 ∧
    (∀ r : RegName, r ≠ .blockWidth → (hostStep .hardReset s).regs.read r = 0) ∧
    (∀ x, (hostStep .hardReset s).byteAt x = none) ∧
    (hostStep .hardReset s).irq = false ∧
    hostStep .hardReset s =
      { s with
        regs := (hostStep .hardReset s).regs
        latch := (hostStep .hardReset s).latch
        mem := (hostStep .hardReset s).mem }

/-- R22, R37, R41: what `State.reset` holds of what the spec gives: the register values, no fault, no byte. -/
def Obligations.PowerOnValues : Prop :=
  State.reset.regs.read .blockWidth = 16 ∧
  (∀ r : RegName, r ≠ .blockWidth → State.reset.regs.read r = 0) ∧
  State.reset.irq = false ∧ State.reset.faults = [] ∧ ∀ x, State.reset.byteAt x = none

/-- R231, R232: soft reset: registers to their reset values; the destination range of a busy block unspecified; every
other byte, `FAULTS` and the rest unchanged; of the latch nothing is said. That R231's draws leave the bytes unspecified,
and are not values kept, is R232 as the model reads it (DEDUCED, log entry 4). -/
def Obligations.SoftResetAborts : Prop :=
  ∀ (s : State) (v : Word), v.getLsbD 1 = true →
    (hostStep (.regWrite 0x00 v) s).regs = Regs.reset ∧
    (∀ x, (hostStep (.regWrite 0x00 v) s).byteAt x =
      if s.regs.busy = true ∧ s.dst ≤ x ∧ x < s.dst + s.latch.outLen then none else s.byteAt x) ∧
    hostStep (.regWrite 0x00 v) s =
      { s with
        regs := Regs.reset
        latch := (hostStep (.regWrite 0x00 v) s).latch
        mem := (hostStep (.regWrite 0x00 v) s).mem }

/-! ### The register port -/

/-- R111: what a register read returns at each offset, and that it changes nothing but the read port. -/
def Obligations.RegReadReturnsValue : Prop :=
  ∀ s : State,
    (hostStep (.regRead 0x00) s).regRdata = (if s.regs.irqEn then 1 else 0) ∧
    ((hostStep (.regRead 0x04) s).regRdata.toNat =
      s.regs.busy.toNat + 2 * s.regs.done.toNat + 4 * s.regs.error.toNat + 8 * s.regs.overrun.toNat) ∧
    (hostStep (.regRead 0x08) s).regRdata = s.regs.cmd ∧
    (hostStep (.regRead 0x0C) s).regRdata = s.regs.srcAddr ∧
    (hostStep (.regRead 0x10) s).regRdata = s.regs.srcLen ∧
    (hostStep (.regRead 0x14) s).regRdata = s.regs.dstAddr ∧
    (hostStep (.regRead 0x18) s).regRdata = s.regs.blockWidth ∧
    (hostStep (.regRead 0x1C) s).regRdata = s.regs.outLen ∧
    (hostStep (.regRead 0x20) s).regRdata = s.regs.blockCount ∧
    (hostStep (.regRead 0x24) s).regRdata = s.regs.padCount ∧
    (hostStep (.regRead 0x28) s).regRdata = s.regs.errCode.toWord ∧
    (hostStep (.regRead 0x2C) s).regRdata = s.regs.errInfo ∧
    (∀ off : Offset, ¬ (off.extractLsb' 0 2 = 0 ∧ off < 0x30) → (hostStep (.regRead off) s).regRdata = 0) ∧
    (∀ off : Offset, hostStep (.regRead off) s = { s with regRdata := (hostStep (.regRead off) s).regRdata })

/-- R113: an offset that is not word-aligned, or is 0x30 or above, reads 0 and ignores writes. -/
def Obligations.RazWiOffsets : Prop :=
  ∀ (s : State) (off : Offset) (v : Word), off.extractLsb' 0 2 ≠ 0 ∨ 0x30 ≤ off →
    hostStep (.regRead off) s = { s with regRdata := 0 } ∧ hostStep (.regWrite off v) s = s

/-- R112: the five result registers ignore writes. -/
def Obligations.ReadOnlyRegistersIgnoreWrites : Prop :=
  ∀ (s : State) (off : Offset) (v : Word), 0x1C ≤ off → off ≤ 0x2C → hostStep (.regWrite off v) s = s

/-- R114: an operand register is stored at once, BUSY or not; the latch keeps its values, and the next issue
takes the new one; a width of 0 is stored and reported by the next SEGMENT. -/
def Obligations.OperandWritesStored : Prop :=
  ∀ (s : State) (v c : Word),
    (hostStep (.regWrite 0x0C v) s = { s with regs := { s.regs with srcAddr := v } } ∧
      ((hostStep (.regWrite 0x0C v) s).issue c).latch.srcAddr = v) ∧
    (hostStep (.regWrite 0x10 v) s = { s with regs := { s.regs with srcLen := v } } ∧
      ((hostStep (.regWrite 0x10 v) s).issue c).latch.srcLen = v) ∧
    (hostStep (.regWrite 0x14 v) s = { s with regs := { s.regs with dstAddr := v } } ∧
      ((hostStep (.regWrite 0x14 v) s).issue c).latch.dstAddr = v) ∧
    (hostStep (.regWrite 0x18 v) s = { s with regs := { s.regs with blockWidth := v } } ∧
      ((hostStep (.regWrite 0x18 v) s).issue c).latch.width = v) ∧
    (s.good → s.regs.busy = false →
      ∃ t, engineTurn (hostStep (.regWrite 0x08 1) (hostStep (.regWrite 0x18 0) s)) = next t ∧
        t.regs.blockWidth = 0 ∧ t.regs.errCode = .badWidth)

/-- R117: a STATUS write clears the W1C bits written as 1 and nothing else. -/
def Obligations.StatusWriteClears : Prop :=
  ∀ (s : State) (v : Word), hostStep (.regWrite 0x04 v) s =
    { s with regs := { s.regs with
        done := s.regs.done && !v.getLsbD 1
        error := s.regs.error && !v.getLsbD 2
        overrun := s.regs.overrun && !v.getLsbD 3 } }

/-- R118: a CTRL write with bit 1 is the soft reset and nothing else; without it, it writes `IRQ_EN` only. -/
def Obligations.CtrlWrite : Prop :=
  ∀ (s : State) (v : Word),
    (v.getLsbD 1 = true → hostStep (.regWrite 0x00 v) s = s.softReset) ∧
    (v.getLsbD 1 = false →
      hostStep (.regWrite 0x00 v) s = { s with regs := { s.regs with irqEn := v.getLsbD 0 } })

/-- R120: a CMD write to an idle block issues the word, whatever it is; memory and results are unchanged. -/
def Obligations.IssueLatches : Prop :=
  ∀ (s : State) (c : Word), s.regs.busy = false → hostStep (.regWrite 0x08 c) s =
    { s with
      regs := { s.regs with cmd := c, busy := true, done := false, error := false }
      latch := {
        cmd := c
        srcAddr := s.regs.srcAddr
        srcLen := s.regs.srcLen
        dstAddr := s.regs.dstAddr
        width := s.regs.blockWidth } }

/-- R121: a CMD write to a busy block sets OVERRUN and changes nothing else. -/
def Obligations.OverrunDiscards : Prop :=
  ∀ (s : State) (c : Word), s.regs.busy = true →
    hostStep (.regWrite 0x08 c) s = { s with regs := { s.regs with overrun := true } }

/-- R33: the result registers change only at completion and at reset. -/
def Obligations.ResultsHeld : Prop :=
  ∀ s t : State, step s = next t →
    s.sameResults t ∨ (s.turn = .engine ∧ s.regs.busy = true) ∨ s.turn = .host .hardReset ∨
    ∃ v, s.turn = .host (.regWrite 0x00 v) ∧ v.getLsbD 1 = true

/-- R206: the interrupt is `IRQ_EN AND DONE`: every completion raises it while enabled; masking, acknowledging,
issuing and reset lower it; enabling it while DONE = 1 raises it at once; OVERRUN and ERROR do not count. -/
def Obligations.InterruptLevel : Prop :=
  (∀ s : State, s.irq = (s.regs.irqEn && s.regs.done)) ∧
  (∀ (i : Instr) (s t : State), exec i s = next t → t.irq = s.regs.irqEn) ∧
  (∀ s : State, s.regs.irqEn = false → s.irq = false) ∧
  (∀ (s : State) (v : Word), v.getLsbD 1 = true → (hostStep (.regWrite 0x04 v) s).irq = false) ∧
  (∀ (s : State) (c : Word), s.regs.busy = false → (hostStep (.regWrite 0x08 c) s).irq = false) ∧
  (∀ s : State, s.hardReset.irq = false ∧ s.softReset.irq = false) ∧
  (∀ s : State, s.regs.done = true → (hostStep (.regWrite 0x00 1) s).irq = true) ∧
  (∀ (s : State) (e o : Bool), { s with regs := { s.regs with error := e, overrun := o } }.irq = s.irq)

/-- R200: the codes are 0 to 7, each its own, and a read of `ERR_CODE` never gives another. -/
def Obligations.ErrorCodeNumbers : Prop :=
  ErrCode.noError.toWord = 0 ∧ ErrCode.illegalCmd.toWord = 1 ∧ ErrCode.badWidth.toWord = 2 ∧
  ErrCode.rangeSrc.toWord = 3 ∧ ErrCode.rangeDst.toWord = 4 ∧ ErrCode.overlap.toWord = 5 ∧
  ErrCode.decodeOddLength.toWord = 6 ∧ ErrCode.decodeBadChar.toWord = 7 ∧
  ∀ s : State, (hostStep (.regRead 0x28) s).regRdata.toNat < 8

/-! ### The memory port and the hazards -/

/-- R241: the hazard ranges, computed from the latch alone. -/
def Obligations.HazardRangesFromLatch : Prop :=
  ∀ (s : State) (a : Nat),
    (s.inSrcRange a ↔ s.src ≤ a ∧ a < s.src + s.len ∧ a < s.size) ∧
    (s.inDstRange a ↔ s.dst ≤ a ∧ a < s.size ∧ a < s.dst +
      (if s.latch.cmd = 1 then (if s.width = 0 then 0 else (s.len + s.width - 1) / s.width * s.width)
       else if s.latch.cmd = 2 then 2 * s.len
       else if s.latch.cmd = 3 then (if s.len % 2 = 1 then 0 else s.len / 2)
       else 0))

/-- R115, R232: a host memory read: 0 at or above `MEM_SIZE`; a draw in a busy destination range; a draw for an
unspecified byte; otherwise the byte. That a draw is the next value of `Config.freeByte` is the model's choice
(log entry 3); nothing is known of that value. -/
def Obligations.MemReadReturns : Prop :=
  ∀ (s : State) (a : Word), hostStep (.memRead a) s =
    if s.size ≤ a.toNat then { s with memRdata := 0 }
    else if s.regs.busy = true ∧ s.inDstRange a.toNat then
      { s with memRdata := Config.freeByte s.draws, draws := s.draws + 1 }
    else match s.byteAt a.toNat with
      | some b => { s with memRdata := b }
      | none => { s with memRdata := Config.freeByte s.draws, draws := s.draws + 1 }

/-- R116: a host memory write: ignored at or above `MEM_SIZE`; otherwise performed, and HAZARD_WRITE is
recorded exactly when a busy command's ranges hold the address. -/
def Obligations.MemWriteStores : Prop :=
  ∀ (s : State) (a : Word) (b : Byte),
    (s.size ≤ a.toNat → hostStep (.memWrite a b) s = s) ∧
    (a.toNat < s.size →
      (hostStep (.memWrite a b) s).byteAt a.toNat = some b ∧
      (∀ x, x ≠ a.toNat → (hostStep (.memWrite a b) s).byteAt x = s.byteAt x) ∧
      (∀ k, k ∈ (hostStep (.memWrite a b) s).faults ↔ k ∈ s.faults ∨
        (k = .hazardWrite ∧ s.regs.busy = true ∧ (s.inSrcRange a.toNat ∨ s.inDstRange a.toNat))) ∧
      hostStep (.memWrite a b) s =
        { s with mem := (hostStep (.memWrite a b) s).mem, faults := (hostStep (.memWrite a b) s).faults })

/-- R232: an unspecified byte stays unspecified when read, and the next read draws again. That the two draws are
`Config.freeByte` at the count of draws and at the count after it is the model's choice (log entry 3). -/
def Obligations.UnspecifiedReadsDrawAgain : Prop :=
  ∀ (s : State) (a : Word), a.toNat < s.size → s.byteAt a.toNat = none →
    (hostStep (.memRead a) s).memRdata = Config.freeByte s.draws ∧
    (hostStep (.memRead a) s).byteAt a.toNat = none ∧
    (hostStep (.memRead a) (hostStep (.memRead a) s)).memRdata = Config.freeByte (s.draws + 1)

/-- R62, R64: a range is legal iff every byte of it is below `MEM_SIZE`; two ranges overlap iff they share a byte. -/
def Obligations.RangeChecksMeanBytes : Prop :=
  (∀ m a n : Nat, inRange m a n ↔ ∀ x, a ≤ x → x < a + n → x < m) ∧
  (∀ s ns d nd : Nat, overlaps s ns d nd ↔ ∃ x, (s ≤ x ∧ x < s + ns) ∧ (d ≤ x ∧ x < d + nd))

/-! ### Every command -/

/-- R21, R63, R203, R204: the frame of an engine step, in every run: BUSY and DONE as a completion leaves them,
the host's side unchanged, and no byte changed outside the destination range. -/
def Obligations.CompletionFrame : Prop :=
  ∀ (i : Instr) (s t : State), decode s.latch.cmd = i → exec i s = next t →
    t.regs.busy = false ∧ t.regs.done = true ∧ s.sameHostSide t ∧
    s.sameBytesOutside t s.dst (outLenOf i s.latch)

/-- R204: in a good run, an engine step whose code is an error changed no byte, cleared the three counts and set
ERROR; one whose code is not an error left ERROR 0. -/
def Obligations.ErrorsWriteNothing : Prop :=
  ∀ (i : Instr) (s t : State), s.good → exec i s = next t →
    (t.regs.errCode ≠ .noError →
      t.mem = s.mem ∧ s.sameHostSide t ∧ t.reports true 0 0 0 t.regs.errCode t.regs.errInfo) ∧
    (t.regs.errCode = .noError → t.regs.error = false ∧ t.regs.errInfo = 0)

/-- R35, R126: the engine reads no live register: with any others the step ends alike. -/
def Obligations.EngineReadsNoLiveRegister : Prop :=
  ∀ (i : Instr) (s : State) (r : Regs), ∃ t u,
    exec i s = next t ∧ exec i { s with regs := r } = next u ∧
    u.mem = t.mem ∧ u.draws = t.draws ∧ u.latch = t.latch ∧ u.faults = t.faults ∧
    t.sameResults u ∧ u.regs.error = t.regs.error

/-- R63: a command reads only its source range: with the same source bytes, whatever the other bytes are, it
reports the same results, and a success writes the same output. -/
def Obligations.CommandReadsSourceOnly : Prop :=
  ∀ (i : Instr) (s : State) (m : Memory), s.good →
    (∀ x, s.src ≤ x → x < s.src + s.len → m.read x = s.byteAt x) → ∃ t u,
    exec i s = next t ∧ exec i { s with mem := m } = next u ∧
    t.sameResults u ∧ u.regs.error = t.regs.error ∧ u.draws = t.draws ∧
    (t.regs.errCode = .noError →
      ∀ x, s.dst ≤ x → x < s.dst + outLenOf i s.latch → u.byteAt x = t.byteAt x)

/-- R35: an idle block's latch is read by nothing: two idle states that differ in it step alike, and the next
latch is either the old one or the newly issued one. -/
def Obligations.IdleLatchUnread : Prop :=
  ∀ (s : State) (l : Latch), s.regs.busy = false → ∃ t u,
    step s = next t ∧ step { s with latch := l } = next u ∧
    u = { t with latch := u.latch } ∧ (t.regs.busy = true → u.latch = t.latch)

/-- R116, R210, R245: once a hazard is recorded, a command still completes, but its results are not defined: in
the model its destination bytes are unspecified and its result registers are free values (log entry 7). -/
def Obligations.FaultedCommandCompletes : Prop :=
  ∀ (i : Instr) (s : State), decode s.latch.cmd = i → ¬ s.good → ∃ t, exec i s = next t ∧
    t.regs.busy = false ∧ t.regs.done = true ∧ s.sameHostSide t ∧
    s.sameBytesOutside t s.dst (outLenOf i s.latch) ∧
    (∀ x, s.dst ≤ x → x < s.dst + outLenOf i s.latch → t.byteAt x = none) ∧
    (t.regs.error = true ↔ t.regs.errCode ≠ .noError)

/-! ### SEGMENT -/

/-- R144: where SEGMENT succeeds, block k's byte j is the data's byte k*w + j, or 0 past the data's end; nothing
else is written (R148). -/
def Obligations.SegmentWritesBlocks : Prop :=
  ∀ s : State, s.segmentRuns → ∃ t, exec .segment s = next t ∧
    (∀ k j, k < ceilDiv s.len s.width → j < s.width →
      (k * s.width + j < s.len → ∃ b, s.mayRead (s.src + (k * s.width + j)) b ∧
        t.byteAt (s.dst + k * s.width + j) = some b) ∧
      (s.len ≤ k * s.width + j → t.byteAt (s.dst + k * s.width + j) = some 0)) ∧
    s.sameBytesOutside t s.dst (paddedLen s.len s.width) ∧ s.sameHostSide t

/-- R142, R143: where SEGMENT succeeds, the counts it reports. -/
def Obligations.SegmentReportsCounts : Prop :=
  ∀ s : State, s.segmentRuns → ∃ t pad, exec .segment s = next t ∧
    t.reports false ((s.len + s.width - 1) / s.width * s.width) ((s.len + s.width - 1) / s.width) pad .noError 0 ∧
    pad = (s.len + s.width - 1) / s.width * s.width - s.len ∧
    pad = (s.width - s.len % s.width) % s.width ∧
    (pad = 0 ↔ s.len % s.width = 0) ∧
    (s.len % s.width ≠ 0 → pad = s.width - s.len % s.width ∧ 1 ≤ pad ∧ pad ≤ s.width - 1)

/-- R145: an exact multiple gets no extra block: exactly n bytes are written. -/
def Obligations.SegmentNoExtraBlock : Prop :=
  ∀ s : State, s.segmentRuns → s.len % s.width = 0 → ∃ t, exec .segment s = next t ∧
    t.reports false s.len (s.len / s.width) 0 .noError 0 ∧ s.sameBytesOutside t s.dst s.len

/-- R146: empty input succeeds at any addresses and writes no byte. -/
def Obligations.SegmentEmptyInput : Prop :=
  ∀ s : State, s.good → s.width ≠ 0 → s.len = 0 → ∃ t, exec .segment s = next t ∧
    t.reports false 0 0 0 .noError 0 ∧ t.mem = s.mem ∧ s.sameHostSide t

/-- R147: in place, the data stays and zeros follow it; there is no overlap check. -/
def Obligations.SegmentInPlace : Prop :=
  ∀ s : State, s.good → s.width ≠ 0 → 0 < s.len → s.src = s.dst → inRange s.size s.src s.len →
    inRange s.size s.dst (paddedLen s.len s.width) → ∃ t, exec .segment s = next t ∧
    t.regs.errCode = .noError ∧
    (∀ x b, s.dst ≤ x → x < s.dst + s.len → s.byteAt x = some b → t.byteAt x = some b) ∧
    (∀ x, s.dst + s.len ≤ x → x < s.dst + paddedLen s.len s.width → t.byteAt x = some 0)

/-- R141: width 0 fails with BAD_WIDTH before any other check, and nothing is read or written. -/
def Obligations.SegmentWidthZero : Prop :=
  ∀ s : State, s.good → s.width = 0 → ∃ t, exec .segment s = next t ∧ s.failsAs t .badWidth 0

/-- R140, R202: SEGMENT's checks after the width, in order. -/
def Obligations.SegmentErrorOrder : Prop :=
  ∀ s : State, s.good → s.width ≠ 0 →
    (¬ inRange s.size s.src s.len → ∃ t, exec .segment s = next t ∧ s.failsAs t .rangeSrc 0) ∧
    (inRange s.size s.src s.len → ¬ inRange s.size s.dst (paddedLen s.len s.width) →
      ∃ t, exec .segment s = next t ∧ s.failsAs t .rangeDst 0) ∧
    (inRange s.size s.src s.len → inRange s.size s.dst (paddedLen s.len s.width) →
      overlaps s.src s.len s.dst (paddedLen s.len s.width) → s.src ≠ s.dst →
      ∃ t, exec .segment s = next t ∧ s.failsAs t .overlap 0)

/-! ### HEX_ENCODE -/

/-- R160, R161: the two digit tables, byte by byte, and that 22 bytes are digits. -/
def Obligations.HexDigitTables : Prop :=
  (∀ v : Nibble, (hexLc v).toNat = if v.toNat ≤ 9 then 0x30 + v.toNat else 0x61 + (v.toNat - 10)) ∧
  (∀ c : Byte, hexVal c =
    if 0x30 ≤ c.toNat ∧ c.toNat ≤ 0x39 then some (BitVec.ofNat 4 (c.toNat - 0x30))
    else if 0x41 ≤ c.toNat ∧ c.toNat ≤ 0x46 then some (BitVec.ofNat 4 (c.toNat - 0x41 + 10))
    else if 0x61 ≤ c.toNat ∧ c.toNat ≤ 0x66 then some (BitVec.ofNat 4 (c.toNat - 0x61 + 10))
    else none) ∧
  ((List.range 256).filter (fun n => (hexVal (BitVec.ofNat 8 n)).isSome)).length = 22

/-- R160, R162 to R164: where HEX_ENCODE succeeds, byte i becomes the lowercase digits of its high and its low nibble at
2i and 2i + 1; `OUT_LEN` is 2n, and nothing else is written. Digit order and
character codes are the spec's own presumption (log entry 12). -/
def Obligations.HexEncodeWritesText : Prop :=
  ∀ s : State, s.hexEncodeRuns → ∃ t, exec .hexEncode s = next t ∧
    t.reports false (2 * s.len) 0 0 .noError 0 ∧
    (∀ i, i < s.len → ∃ b, s.mayRead (s.src + i) b ∧
      t.byteAt (s.dst + 2 * i) = some (hexLc (b.extractLsb' 4 4)) ∧
      t.byteAt (s.dst + 2 * i + 1) = some (hexLc (b.extractLsb' 0 4))) ∧
    s.sameBytesOutside t s.dst (2 * s.len) ∧ s.sameHostSide t

/-- R165: empty input succeeds at any addresses and writes no byte. -/
def Obligations.HexEncodeEmptyInput : Prop :=
  ∀ s : State, s.good → s.len = 0 → ∃ t, exec .hexEncode s = next t ∧
    t.reports false 0 0 0 .noError 0 ∧ t.mem = s.mem ∧ s.sameHostSide t

/-- R163, R166, R202: HEX_ENCODE's checks in order; 2n does not wrap, so a length of 2^31 or more never fits. -/
def Obligations.HexEncodeErrorOrder : Prop :=
  ∀ s : State, s.good →
    (¬ inRange s.size s.src s.len → ∃ t, exec .hexEncode s = next t ∧ s.failsAs t .rangeSrc 0) ∧
    (inRange s.size s.src s.len → ¬ inRange s.size s.dst (2 * s.len) ∨ 2 ^ 31 ≤ s.len →
      ∃ t, exec .hexEncode s = next t ∧ s.failsAs t .rangeDst 0) ∧
    (inRange s.size s.src s.len → inRange s.size s.dst (2 * s.len) → overlaps s.src s.len s.dst (2 * s.len) →
      ∃ t, exec .hexEncode s = next t ∧ s.failsAs t .overlap 0)

/-! ### HEX_DECODE -/

/-- R161, R162, R170: where the text passes the checks and every character is a digit, byte j is the value of
digits 2j (high) and 2j + 1 (low); nothing else is written. -/
def Obligations.HexDecodeWritesBytes : Prop :=
  ∀ s : State, s.hexDecodeReads →
    (∀ i, i < s.len → ∃ c v, s.byteAt (s.src + i) = some c ∧ hexVal c = some v) →
    ∃ t, exec .hexDecode s = next t ∧ t.reports false (s.len / 2) 0 0 .noError 0 ∧
    (∀ j hi lo, j < s.len / 2 → (s.byteAt (s.src + 2 * j)).bind hexVal = some hi →
      (s.byteAt (s.src + 2 * j + 1)).bind hexVal = some lo → t.byteAt (s.dst + j) = some (hi ++ lo)) ∧
    s.sameBytesOutside t s.dst (s.len / 2) ∧ s.sameHostSide t ∧ t.draws = s.draws

/-- R171: an odd length fails with DECODE_ODD_LENGTH and `ERR_INFO` = n, before any other check. -/
def Obligations.HexDecodeOddLength : Prop :=
  ∀ s : State, s.good → s.len % 2 = 1 →
    ∃ t, exec .hexDecode s = next t ∧ s.failsAs t .decodeOddLength s.latch.srcLen

/-- R172: a text with a character that is no digit fails with DECODE_BAD_CHAR and the smallest such index. Only
free values may have been drawn, for unspecified bytes of the text after it (R232). -/
def Obligations.HexDecodeBadChar : Prop :=
  ∀ (s : State) (i : Nat) (c : Byte), s.hexDecodeReads → i < s.len →
    s.byteAt (s.src + i) = some c → hexVal c = none →
    (∀ q, q < i → ∃ e v, s.byteAt (s.src + q) = some e ∧ hexVal e = some v) →
    ∃ t, exec .hexDecode s = next t ∧
      State.failsAs { s with draws := t.draws } t .decodeBadChar (BitVec.ofNat 32 i) ∧ t.regs.errInfo.toNat = i

/-- R174: empty text succeeds at any addresses and writes no byte. -/
def Obligations.HexDecodeEmptyText : Prop :=
  ∀ s : State, s.good → s.len = 0 → ∃ t, exec .hexDecode s = next t ∧
    t.reports false 0 0 0 .noError 0 ∧ t.mem = s.mem ∧ s.sameHostSide t

/-- R170, R176, R202: HEX_DECODE's checks after the length, in order; any overlap is refused, in place included. -/
def Obligations.HexDecodeErrorOrder : Prop :=
  ∀ s : State, s.good → s.len % 2 = 0 →
    (¬ inRange s.size s.src s.len → ∃ t, exec .hexDecode s = next t ∧ s.failsAs t .rangeSrc 0) ∧
    (inRange s.size s.src s.len → ¬ inRange s.size s.dst (s.len / 2) →
      ∃ t, exec .hexDecode s = next t ∧ s.failsAs t .rangeDst 0) ∧
    (inRange s.size s.src s.len → inRange s.size s.dst (s.len / 2) →
      overlaps s.src s.len s.dst (s.len / 2) ∨ (s.src = s.dst ∧ 0 < s.len) →
      ∃ t, exec .hexDecode s = next t ∧ s.failsAs t .overlap 0)

/-- R170, R172, R232: whatever text is read, drawn bytes included, HEX_DECODE completes as that text says: with
DECODE_BAD_CHAR at its first character that is no digit and no write, or with the bytes its digits give. -/
def Obligations.HexDecodeFollowsTextRead : Prop :=
  ∀ s : State, s.hexDecodeReads → ∃ (text : List Byte) (t : State), exec .hexDecode s = next t ∧
    text.length = s.len ∧ (∀ i c, text[i]? = some c → s.mayRead (s.src + i) c) ∧ s.sameHostSide t ∧
    (∀ i c, text[i]? = some c → hexVal c = none → (∀ q < i, ∃ e v, text[q]? = some e ∧ hexVal e = some v) →
      State.failsAs { s with draws := t.draws } t .decodeBadChar (BitVec.ofNat 32 i)) ∧
    ((∀ c ∈ text, ∃ v, hexVal c = some v) → t.reports false (s.len / 2) 0 0 .noError 0 ∧
      ∀ j hi lo, text[2 * j]?.bind hexVal = some hi → text[2 * j + 1]?.bind hexVal = some lo →
        t.byteAt (s.dst + j) = some (hi ++ lo))

/-- R173: upper and lower case digits have one value; decoding is not injective on texts, encoding is injective,
and decoding undoes encoding. -/
def Obligations.HexCaseInsensitive : Prop :=
  (∀ c : Byte, 0x41 ≤ c → c ≤ 0x46 → hexVal c = hexVal (c + 0x20)) ∧
  (∃ p q : List Byte, p ≠ q ∧ ∃ vs, digitValues 0 p = .ok vs ∧ digitValues 0 q = .ok vs) ∧
  Function.Injective hexText ∧
  ∀ x : List Byte, ∃ vs, digitValues 0 (hexText x) = .ok vs ∧ pairDigits vs = x

/-- R175: encoding undoes decoding up to case, and every even-length lowercase hex text is an encoding. -/
def Obligations.HexTextLowercase : Prop :=
  (∀ (p : List Byte) (vs : List Nibble), p.length % 2 = 0 → digitValues 0 p = .ok vs →
    hexText (pairDigits vs) = p.map (fun c => if 0x41 ≤ c ∧ c ≤ 0x46 then c + 0x20 else c)) ∧
  (∀ p : List Byte, p.length % 2 = 0 → (∀ c ∈ p, ∃ v, c = hexLc v) → ∃ x, hexText x = p)

/-- R175: HEX_ENCODE followed by HEX_DECODE of its output, through the buffer memory, gives the bytes back, from
any later state that holds the text and latches the second command. -/
def Obligations.HexRoundTripInMemory : Prop :=
  ∀ s t u : State, s.hexEncodeRuns → exec .hexEncode s = next t →
    u.good → u.mem = t.mem → u.memSize = t.memSize →
    u.src = s.dst → u.len = 2 * s.len → inRange u.size u.dst s.len → ¬ overlaps u.src u.len u.dst s.len →
    ∃ v, exec .hexDecode u = next v ∧ v.reports false s.len 0 0 .noError 0 ∧
      ∀ i, i < s.len → ∃ b, s.mayRead (s.src + i) b ∧ v.byteAt (u.dst + i) = some b

/-! ### ILLEGAL -/

/-- R93: every other word is accepted like any other and completes with ILLEGAL_CMD and the word; nothing is
written. The first clause is about the word that ILLEGAL carries, where R125 and R201 write `L.cmd`: the model's
choice (log entry 8); the second is about the latched word. -/
def Obligations.IllegalWordsComplete : Prop :=
  (∀ (s : State) (c : Word), s.good → ∃ t, exec (.illegal c) s = next t ∧ s.failsAs t .illegalCmd c) ∧
  (∀ (s : State) (c : Word), s.regs.busy = false → s.good →
    c ≠ 0x00000001#32 → c ≠ 0x00000002#32 → c ≠ 0x00000003#32 →
    (hostStep (.regWrite 0x08 c) s).regs.busy = true ∧ (hostStep (.regWrite 0x08 c) s).latch.cmd = c ∧
    ∃ t, engineTurn (hostStep (.regWrite 0x08 c) s) = next t ∧
      (hostStep (.regWrite 0x08 c) s).failsAs t .illegalCmd c)
end

