-- ==== Sys2Proof/Laws/HexCodec.lean ====
section
/-! SUPPORT. The laws of the list functions of the hex codec (42_hex_codec.md R160 to R172). -/

namespace Sys2Proof.Machine

/-- A text has two characters a byte (R164). -/
@[simp] theorem hexText_length (bs : List Byte) : (hexText bs).length = 2 * bs.length := by
  induction bs with
  | nil => rfl
  | cons b bs ih => simp only [hexText, List.length_cons, ih]; omega

/-- Every digit the encoder writes decodes to the nibble it stands for. -/
theorem hexVal_hexLc (v : Nibble) : hexVal (hexLc v) = some v := by
  revert v; decide

/-- Checking a text keeps its length. -/
theorem digitValues_length {i : Nat} {cs : List Byte} {vs : List Nibble} (h : digitValues i cs = .ok vs) :
    vs.length = cs.length := by
  induction cs generalizing i vs with
  | nil => simp [digitValues] at h; simp [← h]
  | cons c cs ih =>
    simp only [digitValues] at h
    split at h
    · simp at h
    · split at h
      · simp at h
      · rename_i vs' hvs
        simp only [Except.ok.injEq] at h
        simp [← h, ih hvs]

/-- A checked text is one of digits, each with its value. -/
theorem digitValues_ok_iff {i : Nat} {cs : List Byte} {vs : List Nibble} :
    digitValues i cs = .ok vs ↔ cs.map hexVal = vs.map some := by
  induction cs generalizing i vs with
  | nil => cases vs <;> simp [digitValues]
  | cons c cs ih =>
    simp only [digitValues]
    cases hc : hexVal c with
    | none => cases vs <;> simp [hc]
    | some v =>
      cases hd : digitValues (i + 1) cs with
      | error j =>
        cases vs with
        | nil => simp
        | cons v' vs =>
          have : ¬ cs.map hexVal = vs.map some := fun h => by simp [ih.2 h] at hd
          simp [this]
      | ok ws =>
        have hw := ih.1 hd
        cases vs with
        | nil => simp
        | cons v' vs =>
          simp only [Except.ok.injEq, List.cons.injEq, List.map_cons, hc, Option.some.injEq, hw]
          exact and_congr_right fun _ =>
            ⟨fun h => by rw [h], fun h => List.map_injective_iff.2 (Option.some_injective _) h⟩

/-- A text is refused at its first byte that is no digit (R172). -/
theorem digitValues_error_iff {i j : Nat} {cs : List Byte} :
    digitValues i cs = .error j ↔
      ∃ p, j = i + p ∧ (∃ c, cs[p]? = some c ∧ hexVal c = none) ∧
        ∀ q < p, ∃ c v, cs[q]? = some c ∧ hexVal c = some v := by
  induction cs generalizing i with
  | nil => simp [digitValues]
  | cons c cs ih =>
    simp only [digitValues]
    cases hc : hexVal c with
    | none =>
      constructor
      · intro h
        refine ⟨0, by simpa using (Except.error.inj h).symm, ⟨c, by simp, hc⟩, fun q hq => by omega⟩
      · rintro ⟨p, rfl, -, hq⟩
        cases p with
        | zero => rfl
        | succ p =>
          obtain ⟨c', v, h1, h2⟩ := hq 0 (by omega)
          simp at h1
          simp [h1, h2] at hc
    | some v =>
      have key : digitValues (i + 1) cs = .error j ↔
          ∃ p, j = i + p ∧ (∃ c', (c :: cs)[p]? = some c' ∧ hexVal c' = none) ∧
            ∀ q < p, ∃ c' v, (c :: cs)[q]? = some c' ∧ hexVal c' = some v := by
        rw [ih]
        constructor
        · rintro ⟨p, rfl, hp, hq⟩
          refine ⟨p + 1, by omega, by simpa using hp, fun q hlt => ?_⟩
          cases q with
          | zero => exact ⟨c, v, by simp, hc⟩
          | succ q => simpa using hq q (by omega)
        · rintro ⟨p, rfl, hp, hq⟩
          cases p with
          | zero =>
            obtain ⟨c', h1, h2⟩ := hp
            simp at h1
            simp [← h1, hc] at h2
          | succ p =>
            refine ⟨p, by omega, by simpa using hp, fun q hlt => ?_⟩
            simpa using hq (q + 1) (by omega)
      rw [← key]
      cases digitValues (i + 1) cs <;> simp

/-- Pairing gives one byte for two digits. -/
@[simp] theorem pairDigits_length (vs : List Nibble) : (pairDigits vs).length = vs.length / 2 := by
  induction vs using pairDigits.induct with
  | case1 hi lo vs ih => simp only [pairDigits, List.length_cons, ih]; omega
  | case2 v => simp [pairDigits]
  | case3 => rfl

end Sys2Proof.Machine
end

