-- ==== Sys2Proof/Laws/State.lean ====
section
/-! SUPPORT. What each update of State leaves in each field, so that no later proof unfolds a record update. -/

namespace Sys2Proof.Machine

@[simp] theorem State.setRegs_regs (s : State) (r : Regs) : (s.setRegs r).regs = r := rfl
@[simp] theorem State.setRegs_latch (s : State) (r : Regs) : (s.setRegs r).latch = s.latch := rfl
@[simp] theorem State.setRegs_mem (s : State) (r : Regs) : (s.setRegs r).mem = s.mem := rfl
@[simp] theorem State.setRegs_faults (s : State) (r : Regs) : (s.setRegs r).faults = s.faults := rfl
@[simp] theorem State.setRegs_memSize (s : State) (r : Regs) : (s.setRegs r).memSize = s.memSize := rfl
@[simp] theorem State.setRegs_agenda (s : State) (r : Regs) : (s.setRegs r).agenda = s.agenda := rfl
@[simp] theorem State.setRegs_draws (s : State) (r : Regs) : (s.setRegs r).draws = s.draws := rfl
@[simp] theorem State.setRegs_regRdata (s : State) (r : Regs) : (s.setRegs r).regRdata = s.regRdata := rfl
@[simp] theorem State.setRegs_memRdata (s : State) (r : Regs) : (s.setRegs r).memRdata = s.memRdata := rfl

@[simp] theorem State.setLatch_regs (s : State) (l : Latch) : (s.setLatch l).regs = s.regs := rfl
@[simp] theorem State.setLatch_latch (s : State) (l : Latch) : (s.setLatch l).latch = l := rfl
@[simp] theorem State.setLatch_mem (s : State) (l : Latch) : (s.setLatch l).mem = s.mem := rfl
@[simp] theorem State.setLatch_faults (s : State) (l : Latch) : (s.setLatch l).faults = s.faults := rfl
@[simp] theorem State.setLatch_memSize (s : State) (l : Latch) : (s.setLatch l).memSize = s.memSize := rfl
@[simp] theorem State.setLatch_agenda (s : State) (l : Latch) : (s.setLatch l).agenda = s.agenda := rfl
@[simp] theorem State.setLatch_draws (s : State) (l : Latch) : (s.setLatch l).draws = s.draws := rfl
@[simp] theorem State.setLatch_regRdata (s : State) (l : Latch) : (s.setLatch l).regRdata = s.regRdata := rfl
@[simp] theorem State.setLatch_memRdata (s : State) (l : Latch) : (s.setLatch l).memRdata = s.memRdata := rfl

@[simp] theorem State.setMem_regs (s : State) (m : Memory) : (s.setMem m).regs = s.regs := rfl
@[simp] theorem State.setMem_latch (s : State) (m : Memory) : (s.setMem m).latch = s.latch := rfl
@[simp] theorem State.setMem_mem (s : State) (m : Memory) : (s.setMem m).mem = m := rfl
@[simp] theorem State.setMem_faults (s : State) (m : Memory) : (s.setMem m).faults = s.faults := rfl
@[simp] theorem State.setMem_memSize (s : State) (m : Memory) : (s.setMem m).memSize = s.memSize := rfl
@[simp] theorem State.setMem_agenda (s : State) (m : Memory) : (s.setMem m).agenda = s.agenda := rfl
@[simp] theorem State.setMem_draws (s : State) (m : Memory) : (s.setMem m).draws = s.draws := rfl
@[simp] theorem State.setMem_regRdata (s : State) (m : Memory) : (s.setMem m).regRdata = s.regRdata := rfl
@[simp] theorem State.setMem_memRdata (s : State) (m : Memory) : (s.setMem m).memRdata = s.memRdata := rfl

@[simp] theorem State.setFaults_regs (s : State) (f : List FaultKind) : (s.setFaults f).regs = s.regs := rfl
@[simp] theorem State.setFaults_latch (s : State) (f : List FaultKind) : (s.setFaults f).latch = s.latch := rfl
@[simp] theorem State.setFaults_mem (s : State) (f : List FaultKind) : (s.setFaults f).mem = s.mem := rfl
@[simp] theorem State.setFaults_faults (s : State) (f : List FaultKind) : (s.setFaults f).faults = f := rfl
@[simp] theorem State.setFaults_memSize (s : State) (f : List FaultKind) : (s.setFaults f).memSize = s.memSize := rfl
@[simp] theorem State.setFaults_agenda (s : State) (f : List FaultKind) : (s.setFaults f).agenda = s.agenda := rfl
@[simp] theorem State.setFaults_draws (s : State) (f : List FaultKind) : (s.setFaults f).draws = s.draws := rfl
@[simp] theorem State.setFaults_regRdata (s : State) (f : List FaultKind) : (s.setFaults f).regRdata = s.regRdata := rfl
@[simp] theorem State.setFaults_memRdata (s : State) (f : List FaultKind) : (s.setFaults f).memRdata = s.memRdata := rfl

@[simp] theorem State.setAgenda_regs (s : State) (es : List Event) : (s.setAgenda es).regs = s.regs := rfl
@[simp] theorem State.setAgenda_latch (s : State) (es : List Event) : (s.setAgenda es).latch = s.latch := rfl
@[simp] theorem State.setAgenda_mem (s : State) (es : List Event) : (s.setAgenda es).mem = s.mem := rfl
@[simp] theorem State.setAgenda_faults (s : State) (es : List Event) : (s.setAgenda es).faults = s.faults := rfl
@[simp] theorem State.setAgenda_memSize (s : State) (es : List Event) : (s.setAgenda es).memSize = s.memSize := rfl
@[simp] theorem State.setAgenda_agenda (s : State) (es : List Event) : (s.setAgenda es).agenda = es := rfl
@[simp] theorem State.setAgenda_draws (s : State) (es : List Event) : (s.setAgenda es).draws = s.draws := rfl
@[simp] theorem State.setAgenda_regRdata (s : State) (es : List Event) : (s.setAgenda es).regRdata = s.regRdata := rfl
@[simp] theorem State.setAgenda_memRdata (s : State) (es : List Event) : (s.setAgenda es).memRdata = s.memRdata := rfl

@[simp] theorem State.setDraws_regs (s : State) (k : Nat) : (s.setDraws k).regs = s.regs := rfl
@[simp] theorem State.setDraws_latch (s : State) (k : Nat) : (s.setDraws k).latch = s.latch := rfl
@[simp] theorem State.setDraws_mem (s : State) (k : Nat) : (s.setDraws k).mem = s.mem := rfl
@[simp] theorem State.setDraws_faults (s : State) (k : Nat) : (s.setDraws k).faults = s.faults := rfl
@[simp] theorem State.setDraws_memSize (s : State) (k : Nat) : (s.setDraws k).memSize = s.memSize := rfl
@[simp] theorem State.setDraws_agenda (s : State) (k : Nat) : (s.setDraws k).agenda = s.agenda := rfl
@[simp] theorem State.setDraws_draws (s : State) (k : Nat) : (s.setDraws k).draws = k := rfl
@[simp] theorem State.setDraws_regRdata (s : State) (k : Nat) : (s.setDraws k).regRdata = s.regRdata := rfl
@[simp] theorem State.setDraws_memRdata (s : State) (k : Nat) : (s.setDraws k).memRdata = s.memRdata := rfl

@[simp] theorem State.setRegRdata_regs (s : State) (v : Word) : (s.setRegRdata v).regs = s.regs := rfl
@[simp] theorem State.setRegRdata_latch (s : State) (v : Word) : (s.setRegRdata v).latch = s.latch := rfl
@[simp] theorem State.setRegRdata_mem (s : State) (v : Word) : (s.setRegRdata v).mem = s.mem := rfl
@[simp] theorem State.setRegRdata_faults (s : State) (v : Word) : (s.setRegRdata v).faults = s.faults := rfl
@[simp] theorem State.setRegRdata_memSize (s : State) (v : Word) : (s.setRegRdata v).memSize = s.memSize := rfl
@[simp] theorem State.setRegRdata_agenda (s : State) (v : Word) : (s.setRegRdata v).agenda = s.agenda := rfl
@[simp] theorem State.setRegRdata_draws (s : State) (v : Word) : (s.setRegRdata v).draws = s.draws := rfl
@[simp] theorem State.setRegRdata_regRdata (s : State) (v : Word) : (s.setRegRdata v).regRdata = v := rfl
@[simp] theorem State.setRegRdata_memRdata (s : State) (v : Word) : (s.setRegRdata v).memRdata = s.memRdata := rfl

@[simp] theorem State.setMemRdata_regs (s : State) (b : Byte) : (s.setMemRdata b).regs = s.regs := rfl
@[simp] theorem State.setMemRdata_latch (s : State) (b : Byte) : (s.setMemRdata b).latch = s.latch := rfl
@[simp] theorem State.setMemRdata_mem (s : State) (b : Byte) : (s.setMemRdata b).mem = s.mem := rfl
@[simp] theorem State.setMemRdata_faults (s : State) (b : Byte) : (s.setMemRdata b).faults = s.faults := rfl
@[simp] theorem State.setMemRdata_memSize (s : State) (b : Byte) : (s.setMemRdata b).memSize = s.memSize := rfl
@[simp] theorem State.setMemRdata_agenda (s : State) (b : Byte) : (s.setMemRdata b).agenda = s.agenda := rfl
@[simp] theorem State.setMemRdata_draws (s : State) (b : Byte) : (s.setMemRdata b).draws = s.draws := rfl
@[simp] theorem State.setMemRdata_regRdata (s : State) (b : Byte) : (s.setMemRdata b).regRdata = s.regRdata := rfl
@[simp] theorem State.setMemRdata_memRdata (s : State) (b : Byte) : (s.setMemRdata b).memRdata = b := rfl

end Sys2Proof.Machine
end

