-- ==== Sys2Proof/Laws/Memory.lean ====
section
/-! SUPPORT. The laws of the buffer memory: read after write, ranges, and that every operation keeps the canonical form (20_memory.md R60, 10_state.md R40). -/

namespace Sys2Proof.Machine

@[simp] theorem Memory.read_nil (a : Nat) : Memory.read [] a = none := rfl

theorem Memory.read_cons (c : Host.Cell) (m : Memory) (a : Nat) :
    Memory.read (c :: m) a = if c.1 = a then some c.2 else Memory.read m a := rfl

/-- An address below every listed one is unlisted. -/
theorem Memory.read_eq_none_of_lt {m : Memory} {a : Nat} (h : ∀ c ∈ m, a < c.1) : m.read a = none := by
  induction m with
  | nil => rfl
  | cons c m ih =>
    have hc := h c (by simp)
    rw [Memory.read_cons, if_neg (by omega)]
    exact ih fun d hd => h d (by simp [hd])

/-- A byte that holds a value is listed. -/
theorem Memory.mem_of_read {m : Memory} {a : Nat} {b : Byte} (h : m.read a = some b) : (a, b) ∈ m := by
  induction m with
  | nil => simp at h
  | cons c m ih =>
    rw [Memory.read_cons] at h
    split at h
    · obtain ⟨x, y⟩ := c
      simp_all
    · simp [ih h]

/-- What a write may list: the byte written and what was listed before. -/
theorem Memory.mem_write {m : Memory} {a : Nat} {b : Byte} {d : Host.Cell} (h : d ∈ m.write a b) :
    d = (a, b) ∨ d ∈ m := by
  induction m with
  | nil => simpa [Memory.write] using h
  | cons c m ih =>
    simp only [Memory.write] at h
    split at h
    · simpa using h
    · split at h
      · rcases List.mem_cons.1 h with h | h
        · exact .inl h
        · exact .inr (List.mem_cons_of_mem _ h)
      · rcases List.mem_cons.1 h with h | h
        · exact .inr (by simp [h])
        · rcases ih h with h | h
          · exact .inl h
          · exact .inr (List.mem_cons_of_mem _ h)

/-- A write keeps the canonical form. -/
theorem Memory.write_wf {m : Memory} (h : m.wf) (a : Nat) (b : Byte) : (m.write a b).wf := by
  induction m with
  | nil => simp [Memory.write]
  | cons c m ih =>
    obtain ⟨hc, hm⟩ := List.pairwise_cons.1 h
    simp only [Memory.write]
    split
    · refine List.pairwise_cons.2 ⟨fun d hd => ?_, h⟩
      rcases List.mem_cons.1 hd with rfl | hd
      · assumption
      · have := hc d hd
        omega
    · split
      · subst a
        exact List.pairwise_cons.2 ⟨hc, hm⟩
      · refine List.pairwise_cons.2 ⟨fun d hd => ?_, ih hm⟩
        rcases Memory.mem_write hd with rfl | hd
        · show c.1 < a
          omega
        · exact hc d hd

/-- Read after write: the address written reads the byte written. -/
@[simp] theorem Memory.read_write_same (m : Memory) (a : Nat) (b : Byte) : (m.write a b).read a = some b := by
  induction m with
  | nil => simp [Memory.write, Memory.read]
  | cons c m ih =>
    simp only [Memory.write]
    split
    · simp [Memory.read]
    · split
      · simp [Memory.read]
      · rw [Memory.read_cons, if_neg (by omega), ih]

/-- Read after write: every other address reads as before. -/
theorem Memory.read_write_other (m : Memory) {a x : Nat} (b : Byte) (h : x ≠ a) :
    (m.write a b).read x = m.read x := by
  induction m with
  | nil => simp [Memory.write, Memory.read, Ne.symm h]
  | cons c m ih =>
    simp only [Memory.write]
    split
    · rw [Memory.read_cons, if_neg (by simpa using Ne.symm h)]
    · split
      · subst a
        simp [Memory.read_cons, Ne.symm h]
      · simp only [Memory.read_cons, ih]

/-- `MemWrite` keeps the canonical form. -/
theorem Memory.writeList_wf {m : Memory} (h : m.wf) (a : Nat) (bs : List Byte) : (m.writeList a bs).wf := by
  induction bs generalizing m a with
  | nil => exact h
  | cons b bs ih => exact ih (Memory.write_wf h a b) (a + 1)

/-- What `MemWrite` may list. -/
theorem Memory.mem_writeList {m : Memory} {a : Nat} {bs : List Byte} {d : Host.Cell} (h : d ∈ m.writeList a bs) :
    (a ≤ d.1 ∧ d.1 < a + bs.length) ∨ d ∈ m := by
  induction bs generalizing m a with
  | nil => exact .inr h
  | cons b bs ih =>
    rcases ih h with h | h
    · exact .inl (by simp only [List.length_cons]; omega)
    · rcases Memory.mem_write h with rfl | h
      · exact .inl (by simp only [List.length_cons]; omega)
      · exact .inr h

/-- `MemWrite` leaves the bytes outside its range. -/
theorem Memory.read_writeList_outside (m : Memory) {a x : Nat} (bs : List Byte)
    (h : ¬ (a ≤ x ∧ x < a + bs.length)) : (m.writeList a bs).read x = m.read x := by
  induction bs generalizing m a with
  | nil => rfl
  | cons b bs ih =>
    simp only [List.length_cons] at h
    rw [Memory.writeList, ih _ (by omega), Memory.read_write_other _ _ (by omega)]

/-- `MemWrite` puts element i at address a + i (R15, R60). -/
theorem Memory.read_writeList_inside (m : Memory) (a : Nat) (bs : List Byte) {i : Nat} (h : i < bs.length) :
    (m.writeList a bs).read (a + i) = some bs[i] := by
  induction bs generalizing m a i with
  | nil => simp at h
  | cons b bs ih =>
    rw [Memory.writeList]
    cases i with
    | zero => rw [Memory.read_writeList_outside _ _ (by omega)]; simp
    | succ i =>
      have := ih (m.write a b) (a + 1) (i := i) (by simpa using h)
      rw [show a + 1 + i = a + (i + 1) by omega] at this
      simpa using this

/-- Making bytes unspecified keeps the canonical form. -/
theorem Memory.forget_wf {m : Memory} (h : m.wf) (a n : Nat) : (m.forget a n).wf :=
  List.Pairwise.filter _ h

/-- Making bytes unspecified lists nothing new. -/
theorem Memory.mem_forget {m : Memory} {a n : Nat} {d : Host.Cell} (h : d ∈ m.forget a n) : d ∈ m :=
  (List.mem_filter.1 h).1

/-- The bytes made unspecified hold no value, and all others read as before. -/
theorem Memory.read_forget (m : Memory) (a n x : Nat) :
    (m.forget a n).read x = if a ≤ x ∧ x < a + n then none else m.read x := by
  induction m with
  | nil => simp [Memory.forget]
  | cons c m ih =>
    have hstep : Memory.forget (c :: m) a n =
        if a ≤ c.1 ∧ c.1 < a + n then Memory.forget m a n else c :: Memory.forget m a n := by
      simp only [Memory.forget, List.filter_cons]
      by_cases h : a ≤ c.1 ∧ c.1 < a + n <;> simp [h]
    rw [hstep]
    by_cases hc : a ≤ c.1 ∧ c.1 < a + n
    · rw [if_pos hc, ih, Memory.read_cons]
      by_cases hx : a ≤ x ∧ x < a + n
      · simp [hx]
      · rw [if_neg hx, if_neg hx, if_neg (by rintro rfl; exact hx hc)]
    · rw [if_neg hc, Memory.read_cons, Memory.read_cons, ih]
      by_cases hx : c.1 = x
      · subst hx; simp [hc]
      · simp [hx]

/-- `MemRead` gives n bytes. -/
@[simp] theorem Memory.readList_length (m : Memory) (a n k : Nat) : (m.readList a n k).1.length = n := by
  induction n generalizing a k with
  | zero => rfl
  | succ n ih => simp only [Memory.readList]; split <;> simp [ih]

/-- `MemRead` gives at index i the byte at a + i where that byte holds a value (R15). -/
theorem Memory.readList_getElem? (m : Memory) (a n k : Nat) {i : Nat} {b : Byte} (hi : i < n)
    (hb : m.read (a + i) = some b) : (m.readList a n k).1[i]? = some b := by
  induction n generalizing a k i with
  | zero => omega
  | succ n ih =>
    simp only [Memory.readList]
    cases i with
    | zero => simp only [Nat.add_zero] at hb; simp [hb]
    | succ i =>
      have hb' : m.read (a + 1 + i) = some b := by rw [← hb]; congr 1; omega
      split <;> simpa using ih (a + 1) _ (by omega) hb'

/-- Reading bytes that all hold values draws nothing. -/
theorem Memory.readList_draws (m : Memory) (a n k : Nat) (h : ∀ i < n, (m.read (a + i)).isSome) :
    (m.readList a n k).2 = k := by
  induction n generalizing a k with
  | zero => rfl
  | succ n ih =>
    have h0 := h 0 (by omega)
    have h' : ∀ i < n, (m.read (a + 1 + i)).isSome := fun i hi => by
      have := h (i + 1) (by omega)
      rwa [show a + 1 + i = a + (i + 1) by omega]
    simp only [Memory.readList]
    split
    · exact ih _ _ h'
    · simp_all

/-- `MemRead` of one sequence written by `MemWrite` gives it back (R70). -/
theorem Memory.readList_writeList (m : Memory) (a k : Nat) (bs : List Byte) :
    (m.writeList a bs).readList a bs.length k = (bs, k) := by
  refine Prod.ext ?_ ?_
  · refine List.ext_getElem? fun i => ?_
    by_cases hi : i < bs.length
    · rw [Memory.readList_getElem? _ _ _ _ hi (Memory.read_writeList_inside m a bs hi)]
      simp [hi]
    · rw [List.getElem?_eq_none (by simpa using Nat.not_lt.1 hi), List.getElem?_eq_none (Nat.not_lt.1 hi)]
  · exact Memory.readList_draws _ _ _ _ fun i hi => by simp [Memory.read_writeList_inside m a bs hi]

end Sys2Proof.Machine
end

