-- ==== Sys2Proof/Laws/Ops.lean ====
section
/-! SUPPORT. What each shared operation does, said once: reading the source, completion, issue, reset, the fault set (40_host_interface.md R120, 60_exceptions.md R203, R204, R210, 70_reset_and_hazards.md R230, R231). -/

namespace Sys2Proof.Machine

/-- The source is `SRC_LEN` bytes long. -/
@[simp] theorem State.sourceBytes_length (s : State) : s.sourceBytes.length = s.len := by
  simp [State.sourceBytes]

@[simp] theorem State.afterSource_regs (s : State) : s.afterSource.regs = s.regs := rfl
@[simp] theorem State.afterSource_latch (s : State) : s.afterSource.latch = s.latch := rfl
@[simp] theorem State.afterSource_mem (s : State) : s.afterSource.mem = s.mem := rfl
@[simp] theorem State.afterSource_faults (s : State) : s.afterSource.faults = s.faults := rfl
@[simp] theorem State.afterSource_memSize (s : State) : s.afterSource.memSize = s.memSize := rfl
@[simp] theorem State.afterSource_agenda (s : State) : s.afterSource.agenda = s.agenda := rfl
@[simp] theorem State.afterSource_regRdata (s : State) : s.afterSource.regRdata = s.regRdata := rfl
@[simp] theorem State.afterSource_memRdata (s : State) : s.afterSource.memRdata = s.memRdata := rfl

@[simp] theorem State.writeDest_regs (s : State) (bs : List Byte) : (s.writeDest bs).regs = s.regs := rfl
@[simp] theorem State.writeDest_latch (s : State) (bs : List Byte) : (s.writeDest bs).latch = s.latch := rfl
@[simp] theorem State.writeDest_mem (s : State) (bs : List Byte) :
    (s.writeDest bs).mem = s.mem.writeList s.dst bs := rfl
@[simp] theorem State.writeDest_faults (s : State) (bs : List Byte) : (s.writeDest bs).faults = s.faults := rfl
@[simp] theorem State.writeDest_memSize (s : State) (bs : List Byte) : (s.writeDest bs).memSize = s.memSize := rfl
@[simp] theorem State.writeDest_agenda (s : State) (bs : List Byte) : (s.writeDest bs).agenda = s.agenda := rfl
@[simp] theorem State.writeDest_draws (s : State) (bs : List Byte) : (s.writeDest bs).draws = s.draws := rfl
@[simp] theorem State.writeDest_regRdata (s : State) (bs : List Byte) : (s.writeDest bs).regRdata = s.regRdata := rfl
@[simp] theorem State.writeDest_memRdata (s : State) (bs : List Byte) : (s.writeDest bs).memRdata = s.memRdata := rfl

/-- The code drawn for an undefined completion is `noError` exactly when ERROR is drawn 0. -/
theorem State.completeUndefined_error (s : State) :
    s.completeUndefined.regs.error = (s.completeUndefined.regs.errCode != ErrCode.noError) := rfl

/-- Every completion clears BUSY and sets DONE, and leaves the host's side alone (R203, R204). -/
theorem State.completeUndefined_spec (s : State) :
    s.completeUndefined.regs.busy = false ∧ s.completeUndefined.regs.done = true ∧
    s.sameHostSide s.completeUndefined ∧
    s.completeUndefined.mem = s.mem.forget s.dst s.latch.outLen :=
  ⟨rfl, rfl, ⟨rfl, rfl, rfl, rfl, rfl, rfl, rfl, rfl, rfl, rfl, rfl, rfl, rfl⟩, rfl⟩

/-- `complete_ok` in a good run (R203). -/
theorem State.completeOk_good {s : State} (h : s.good) (out bc pad : Nat) :
    s.completeOk out bc pad = { s with regs := { s.regs with
      busy := false, done := true, error := false,
      outLen := BitVec.ofNat 32 out, blockCount := BitVec.ofNat 32 bc, padCount := BitVec.ofNat 32 pad,
      errCode := .noError, errInfo := 0 } } := by
  simp [State.completeOk, h, State.setRegs, Regs.endBusy]

/-- `complete_err` in a good run (R204). -/
theorem State.completeErr_good {s : State} (h : s.good) (code : ErrCode) (info : Word) :
    s.failsAs (s.completeErr code info) code info := by
  simp [State.failsAs, State.completeErr, h, State.setRegs, Regs.endBusy]

/-- `complete_ok` once a hazard is recorded (R245). -/
theorem State.completeOk_faulted {s : State} (h : ¬ s.good) (out bc pad : Nat) :
    s.completeOk out bc pad = s.completeUndefined := by
  simp [State.completeOk, h]

/-- `complete_err` once a hazard is recorded (R245). -/
theorem State.completeErr_faulted {s : State} (h : ¬ s.good) (code : ErrCode) (info : Word) :
    s.completeErr code info = s.completeUndefined := by
  simp [State.completeErr, h]

/-- `complete_ok` ends the command and leaves the host's side alone, in every run (R203). -/
theorem State.completeOk_spec (s : State) (out bc pad : Nat) :
    (s.completeOk out bc pad).regs.busy = false ∧ (s.completeOk out bc pad).regs.done = true ∧
    s.sameHostSide (s.completeOk out bc pad) := by
  by_cases h : s.good
  · rw [State.completeOk_good h]
    exact ⟨rfl, rfl, rfl, rfl, rfl, rfl, rfl, rfl, rfl, rfl, rfl, rfl, rfl, rfl, rfl⟩
  · rw [State.completeOk_faulted h]
    exact ⟨rfl, rfl, rfl, rfl, rfl, rfl, rfl, rfl, rfl, rfl, rfl, rfl, rfl, rfl, rfl⟩

/-- `complete_err` ends the command and leaves the host's side alone, in every run (R204). -/
theorem State.completeErr_spec (s : State) (code : ErrCode) (info : Word) :
    (s.completeErr code info).regs.busy = false ∧ (s.completeErr code info).regs.done = true ∧
    s.sameHostSide (s.completeErr code info) := by
  by_cases h : s.good
  · rw [State.completeErr_good h code info]
    exact ⟨rfl, rfl, rfl, rfl, rfl, rfl, rfl, rfl, rfl, rfl, rfl, rfl, rfl, rfl, rfl⟩
  · rw [State.completeErr_faulted h]
    exact ⟨rfl, rfl, rfl, rfl, rfl, rfl, rfl, rfl, rfl, rfl, rfl, rfl, rfl, rfl, rfl⟩

/-- ISSUE, field by field (R120). -/
theorem State.issue_eq (s : State) (c : Word) :
    s.issue c = { s with
      regs := { s.regs with cmd := c, busy := true, done := false, error := false }
      latch := ⟨c, s.regs.srcAddr, s.regs.srcLen, s.regs.dstAddr, s.regs.blockWidth⟩ } := rfl

/-- SOFT RESET of an idle block (R231): registers only. -/
theorem State.softReset_idle {s : State} (h : s.regs.busy = false) :
    s.softReset = { s with regs := Regs.reset } := by
  simp [State.softReset, h, State.setRegs]

/-- SOFT RESET of a busy block (R231): the destination range becomes unspecified as well. -/
theorem State.softReset_busy {s : State} (h : s.regs.busy = true) :
    s.softReset = { s with
      regs := Regs.reset
      mem := s.mem.forget s.dst s.latch.outLen } := by
  simp [State.softReset, h, State.setRegs, State.setMem]

/-- HARD RESET (R230). -/
theorem State.hardReset_eq (s : State) : s.hardReset = { s with regs := Regs.reset, mem := [] } := rfl

/-- Raising a fault adds its kind (R210). -/
theorem State.mem_raise (s : State) (k x : FaultKind) : x ∈ (s.raise k).faults ↔ x = k ∨ x ∈ s.faults := by
  rw [State.raise, State.setFaults_faults]
  split
  · rename_i h
    exact ⟨.inr, fun hx => hx.elim (fun e => e ▸ h) id⟩
  · rw [List.mem_append, List.mem_singleton, or_comm]

/-- Raising a fault repeats no kind (R37). -/
theorem State.raise_nodup {s : State} (h : s.faults.Nodup) (k : FaultKind) : (s.raise k).faults.Nodup := by
  rw [State.raise, State.setFaults_faults]
  split
  · exact h
  · rename_i hk
    exact List.nodup_append.2 ⟨h, List.nodup_singleton k, fun a ha b hb => fun e => hk (by
      rw [← List.mem_singleton.1 hb, ← e]; exact ha)⟩

/-- `ceil_div(n, w) * w` is the least multiple of w at or above n (R142, R143). -/
theorem ceilDiv_bounds {n w : Nat} (hw : 0 < w) : n ≤ paddedLen n w ∧ paddedLen n w < n + w := by
  unfold paddedLen ceilDiv
  have h := Nat.div_add_mod (n + w - 1) w
  have hlt := Nat.mod_lt (n + w - 1) hw
  rw [Nat.mul_comm w] at h
  omega

end Sys2Proof.Machine
end

