-- ==== Sys2Proof/Laws/Exec.lean ====
section
/-! SUPPORT. All an engine step can do, said once: every command ends in one error completion that wrote nothing, or in one success whose output fills its destination range (40_host_interface.md R125, 20_memory.md R63). -/

namespace Sys2Proof.Machine

/-- An engine step on i that fails: it wrote nothing (R204), and the code is an error. -/
def EndsInError (s t : State) : Prop :=
  ∃ code info, code ≠ ErrCode.noError ∧ (t = s.completeErr code info ∨ t = s.afterSource.completeErr code info)

/-- An engine step on i that succeeds: it wrote `out_len` bytes, all of them inside the buffer memory (R62, R63). -/
def EndsInSuccess (i : Instr) (s t : State) : Prop :=
  ∃ bytes bc pad, t = (s.afterSource.writeDest bytes).completeOk bytes.length bc pad ∧
    bytes.length = outLenOf i s.latch ∧ inRange s.size s.dst bytes.length ∧
    bc ≤ bytes.length ∧ pad ≤ bytes.length

/-- An error before the source is read. -/
theorem EndsInError.early (s : State) {code : ErrCode} {info : Word} (h : code ≠ .noError) :
    EndsInError s (s.completeErr code info) := ⟨code, info, h, .inl rfl⟩

/-- SEGMENT answers a next state, by an error or a success. -/
theorem execSegment_cases (s : State) :
    ∃ t, execSegment s = .next t ∧ (EndsInError s t ∨ EndsInSuccess .segment s t) := by
  simp only [execSegment]
  split
  · exact ⟨_, rfl, .inl (.early s (by decide))⟩
  · rename_i hw
    split
    · exact ⟨_, rfl, .inl (.early s (by decide))⟩
    · split
      · exact ⟨_, rfl, .inl (.early s (by decide))⟩
      · rename_i hd
        split
        · exact ⟨_, rfl, .inl (.early s (by decide))⟩
        · have hb := ceilDiv_bounds (n := s.len) (Nat.pos_of_ne_zero hw)
          have hlen : (s.sourceBytes ++ List.replicate (padOf s.len s.width) 0#8).length
              = paddedLen s.len s.width := by
            simp only [List.length_append, State.sourceBytes_length, List.length_replicate, padOf]
            omega
          refine ⟨_, rfl, .inr ⟨_, _, _, by rw [hlen], ?_, ?_, ?_, ?_⟩⟩
          · simp only [hlen, outLenOf, if_neg hw]
          · rw [hlen]
            exact not_not.1 hd
          · rw [hlen]
            exact Nat.le_mul_of_pos_right _ (Nat.pos_of_ne_zero hw)
          · rw [hlen]
            simp only [padOf]
            omega

/-- HEX_ENCODE answers a next state, by an error or a success. -/
theorem execHexEncode_cases (s : State) :
    ∃ t, execHexEncode s = .next t ∧ (EndsInError s t ∨ EndsInSuccess .hexEncode s t) := by
  simp only [execHexEncode]
  split
  · exact ⟨_, rfl, .inl (.early s (by decide))⟩
  · split
    · exact ⟨_, rfl, .inl (.early s (by decide))⟩
    · rename_i hd
      split
      · exact ⟨_, rfl, .inl (.early s (by decide))⟩
      · have hlen : (hexText s.sourceBytes).length = 2 * s.len := by simp
        exact ⟨_, rfl, .inr ⟨_, 0, 0, by rw [hlen], by simp [outLenOf], by rw [hlen]; exact not_not.1 hd,
          by omega, by omega⟩⟩

/-- HEX_DECODE answers a next state, by an error or a success. -/
theorem execHexDecode_cases (s : State) :
    ∃ t, execHexDecode s = .next t ∧ (EndsInError s t ∨ EndsInSuccess .hexDecode s t) := by
  simp only [execHexDecode]
  split
  · exact ⟨_, rfl, .inl (.early s (by decide))⟩
  · rename_i hodd
    split
    · exact ⟨_, rfl, .inl (.early s (by decide))⟩
    · split
      · exact ⟨_, rfl, .inl (.early s (by decide))⟩
      · rename_i hd
        split
        · exact ⟨_, rfl, .inl (.early s (by decide))⟩
        · split
          · exact ⟨_, rfl, .inl ⟨.decodeBadChar, _, by decide, .inr rfl⟩⟩
          · rename_i vs hvs
            have hlen : (pairDigits vs).length = s.len / 2 := by
              rw [pairDigits_length, digitValues_length hvs, State.sourceBytes_length]
            exact ⟨_, rfl, .inr ⟨_, 0, 0, by rw [hlen], by rw [hlen]; simp [outLenOf, hodd],
              by rw [hlen]; exact not_not.1 hd, by omega, by omega⟩⟩

/-- Every command answers a next state, by an error or a success (R125). -/
theorem exec_cases (i : Instr) (s : State) :
    ∃ t, exec i s = .next t ∧ (EndsInError s t ∨ EndsInSuccess i s t) := by
  cases i with
  | segment => exact execSegment_cases s
  | hexEncode => exact execHexEncode_cases s
  | hexDecode => exact execHexDecode_cases s
  | illegal w => exact ⟨_, rfl, .inl (.early s (by decide))⟩

end Sys2Proof.Machine
end

