-- ==== Sys2Proof/Laws/PerInstr.lean ====
section
/-! SUPPORT. The per-instruction family OpField: which field values of R90 a well-formed instruction's word has (30_encoding.md R90, R92, R93). -/

namespace Sys2Proof.Laws.OpField

/-- A well-formed instruction is one of the three commands exactly when its word has `Z` = 0 and `OP` = 1, 2 or 3. -/
def Statement (i : Instr) : Prop :=
  i.wf = true →
    ((∀ w, i ≠ .illegal w) ↔
      zField (encode i) = 0 ∧ (opField (encode i) = 1 ∨ opField (encode i) = 2 ∨ opField (encode i) = 3))

theorem segment : Statement .segment := fun _ => ⟨fun _ => by decide, fun _ _ h => by cases h⟩

theorem hexEncode : Statement .hexEncode := fun _ => ⟨fun _ => by decide, fun _ _ h => by cases h⟩

theorem hexDecode : Statement .hexDecode := fun _ => ⟨fun _ => by decide, fun _ _ h => by cases h⟩

/-- A word with `Z` = 0 is its `OP`. -/
theorem word_of_fields {w : Word} (h : zField w = 0) : w = (opField w).setWidth 32 := by
  apply BitVec.eq_of_toNat_eq
  have hz : w.toNat / 2 ^ 8 % 2 ^ 24 = 0 := by
    simpa [zField, BitVec.extractLsb', Nat.shiftRight_eq_div_pow] using congrArg BitVec.toNat h
  have hw := w.isLt
  simp only [opField, BitVec.extractLsb', BitVec.toNat_setWidth, BitVec.toNat_ofNat, Nat.shiftRight_zero]
  omega

theorem illegal (w : Word) : Statement (.illegal w) := by
  intro hwf
  refine ⟨fun h => absurd rfl (h w), fun ⟨hz, ho⟩ => ?_⟩
  have hw := word_of_fields hz
  simp only [encode] at hw ho
  rcases ho with ho | ho | ho <;> rw [ho] at hw <;> rw [hw] at hwf <;> exact absurd hwf (by decide)

end Sys2Proof.Laws.OpField
end

