-- ==== Sys2Proof/Laws/Step.lean ====
section
/-! SUPPORT. All one step can do, said once (20_memory.md R70, 40_host_interface.md R110, R125). -/

namespace Sys2Proof.Machine

/-- A step is a host transaction, an engine step on the latched command, or an idle engine's turn. -/
theorem step_cases {s t : State} (h : step s = .next t) :
    (∃ x, s.turn = .host x ∧ t = hostStep x s.popTurn) ∨
    (s.turn = .engine ∧ s.regs.busy = true ∧ exec s.latched s.popTurn = .next t) ∨
    (s.turn = .engine ∧ s.regs.busy = false ∧ t = s.popTurn) := by
  unfold step at h
  cases ht : s.turn with
  | host x =>
    rw [ht] at h
    exact .inl ⟨x, rfl, (Host.Outcome.next.inj h).symm⟩
  | engine =>
    rw [ht] at h
    simp only [engineTurn] at h
    cases hb : s.regs.busy with
    | true =>
      rw [if_pos (by simpa [State.popTurn] using hb)] at h
      exact .inr (.inl ⟨rfl, rfl, h⟩)
    | false =>
      rw [if_neg (by simp [State.popTurn, hb])] at h
      exact .inr (.inr ⟨rfl, rfl, (Host.Outcome.next.inj h).symm⟩)

/-- What no host transaction changes: MEM_SIZE, the agenda, and the faults already recorded (R7, R37). -/
theorem hostStep_keeps (x : HostTxn) (s : State) :
    (hostStep x s).memSize = s.memSize ∧ (hostStep x s).agenda = s.agenda ∧
    ∀ k ∈ s.faults, k ∈ (hostStep x s).faults := by
  cases x with
  | regRead off => simp only [hostStep, State.regRead]; split <;> exact ⟨rfl, rfl, fun _ h => h⟩
  | regWrite off v =>
    simp only [hostStep, State.regWrite]
    split
    · exact ⟨rfl, rfl, fun _ h => h⟩
    · rename_i r _
      cases r <;> simp only [State.writeReg, State.writeCtrl, State.writeCmd, State.softReset] <;>
        (repeat' split) <;> first | exact ⟨rfl, rfl, fun _ h => h⟩ | exact ⟨trivial, trivial, fun _ h => h⟩
  | memRead a =>
    simp only [hostStep, State.memRead]
    repeat' split
    all_goals exact ⟨rfl, rfl, fun _ h => h⟩
  | memWrite a b =>
    simp only [hostStep, State.memWrite]
    split
    · exact ⟨rfl, rfl, fun _ h => h⟩
    · split
      · exact ⟨rfl, rfl, fun k h => (State.mem_raise s _ k).2 (.inr h)⟩
      · exact ⟨rfl, rfl, fun _ h => h⟩
  | hardReset => exact ⟨rfl, rfl, fun _ h => h⟩

/-- A run of k + 1 steps is a step and then a run of k steps. -/
theorem coreRun_succ (M : Host.Core) {k : Nat} {s t u : M.State} (h : M.step s = .next t)
    (hu : M.run k t = .next u) : M.run (k + 1) s = .next u := by
  simp [Host.Core.run, h, hu]

/-- The same for the block's own step. -/
theorem run_succ {k : Nat} {s t u : State} (h : step s = .next t)
    (hu : Host.Core.run core k t = .next u) : Host.Core.run core (k + 1) s = .next u :=
  coreRun_succ core h hu

end Sys2Proof.Machine
end

