-- ==== Sys2Proof/Tests/Slice0.lean ====
section
/-! SUPPORT. The model's own tests: decoding, the WellFormed smoke tests, one step at a time on the vectors of 95_test_vectors.md, and for every statement with hypotheses a witness that meets them. -/

namespace Sys2Proof.Machine.Tests

/-- The state a step answers, if it answers one. -/
def nextOf (o : Host.Outcome State Fault Refusal) : Option State :=
  match o with
  | .next t => some t
  | .fault _ => none
  | .refused _ => none

/-- An answered state is a next state. -/
theorem exists_next {o : Host.Outcome State Fault Refusal} (h : (nextOf o).isSome = true) : ∃ t, o = .next t := by
  cases o with
  | next t => exact ⟨t, rfl⟩
  | fault r => cases h
  | refused r => cases h

/-- Memory holding these bytes from a on, and nothing else. -/
def bytesAt (a : Nat) (bs : List Byte) : Memory := Memory.writeList [] a bs

/-- A busy block with the command word and operands latched, `MEM_SIZE` = 65536 and this memory. -/
def busyWith (cmd src len dst width : Word) (m : Memory) : State :=
  { State.reset with
    regs := { Regs.reset with busy := true, cmd := cmd }
    latch := { cmd := cmd, srcAddr := src, srcLen := len, dstAddr := dst, width := width }
    mem := m }

/-- What a step reports: STATUS, OUT_LEN, BLOCK_COUNT, PAD_COUNT, ERR_CODE, ERR_INFO. -/
def report (o : Host.Outcome State Fault Refusal) : Option (List Word) :=
  (nextOf o).map fun t =>
    [t.regs.read .status, t.regs.read .outLen, t.regs.read .blockCount, t.regs.read .padCount,
      t.regs.read .errCode, t.regs.read .errInfo]

/-- The n bytes from a after a step. -/
def bytesAfter (o : Host.Outcome State Fault Refusal) (a n : Nat) : Option (List (Option Byte)) :=
  (nextOf o).map fun t => (List.range n).map fun i => t.byteAt (a + i)

/-! ### Decoding (words written out from R90 and R92) and WellFormed -/

theorem test_decode_segment : decode 0b00000000000000000000000000000001#32 = .segment := by decide
theorem test_decode_hexEncode : decode 0b00000000000000000000000000000010#32 = .hexEncode := by decide
theorem test_decode_hexDecode : decode 0b00000000000000000000000000000011#32 = .hexDecode := by decide
/-- OP = 1 but Z = 1 (V47). -/
theorem test_decode_illegal_z :
    decode 0b00000000000000000000000100000001#32 = .illegal 0b00000000000000000000000100000001#32 := by decide
/-- OP = 0 (V45). -/
theorem test_decode_illegal_zero : decode 0#32 = .illegal 0 := by decide
theorem test_encode_hexDecode : encode .hexDecode = 0b00000000000000000000000000000011#32 := by decide
theorem test_decodeTableWord : decodeTableWord 32 2 = some .hexEncode := by decide

theorem test_wf_refuses_segment_word : (Instr.illegal 1).wf = false := by decide
theorem test_wf_refuses_hexEncode_word : (Instr.illegal 2).wf = false := by decide
theorem test_wf_refuses_hexDecode_word : (Instr.illegal 3).wf = false := by decide
theorem test_wf_accepts_illegal : (Instr.illegal 0x101).wf = true := by decide

/-! ### SEGMENT (V1, V19a), HEX_ENCODE (V20, V26), HEX_DECODE (V31, V40), ILLEGAL (V47) -/

/-- V1: "HELLO" and eleven zero bytes. -/
theorem test_segment_hello :
    report (exec .segment (busyWith 1 0x1000 5 0x2000 16 (bytesAt 0x1000 [0x48, 0x45, 0x4C, 0x4C, 0x4F]))) =
      some [0x2, 16, 1, 11, 0, 0] ∧
    bytesAfter (exec .segment (busyWith 1 0x1000 5 0x2000 16 (bytesAt 0x1000 [0x48, 0x45, 0x4C, 0x4C, 0x4F])))
      0x2000 17 =
      some ([0x48, 0x45, 0x4C, 0x4C, 0x4F, 0, 0, 0, 0, 0, 0, 0, 0, 0, 0, 0].map some ++ [none]) := by
  decide

/-- V19a: in place. -/
theorem test_segment_in_place :
    bytesAfter (exec .segment (busyWith 1 0x300 3 0x300 8 (bytesAt 0x300 [0x78, 0x79, 0x7A]))) 0x300 8 =
      some ([0x78, 0x79, 0x7A, 0, 0, 0, 0, 0].map some) := by
  decide

/-- V20: "0a1b". -/
theorem test_hexEncode_text :
    bytesAfter (exec .hexEncode (busyWith 2 0x1000 2 0x2000 16 (bytesAt 0x1000 [0x0A, 0x1B]))) 0x2000 4 =
      some ([0x30, 0x61, 0x31, 0x62].map some) := by
  decide

/-- V26: the boundary between digits and letters. -/
theorem test_hexEncode_boundary :
    report (exec .hexEncode (busyWith 2 0x1000 2 0x2000 16 (bytesAt 0x1000 [0x9F, 0xA0]))) =
      some [0x2, 4, 0, 0, 0, 0] ∧
    bytesAfter (exec .hexEncode (busyWith 2 0x1000 2 0x2000 16 (bytesAt 0x1000 [0x9F, 0xA0]))) 0x2000 4 =
      some ([0x39, 0x66, 0x61, 0x30].map some) := by
  decide

/-- V31: "0a1B". -/
theorem test_hexDecode_bytes :
    report (exec .hexDecode (busyWith 3 0x1000 4 0x2000 16 (bytesAt 0x1000 [0x30, 0x61, 0x31, 0x42]))) =
      some [0x2, 2, 0, 0, 0, 0] ∧
    bytesAfter (exec .hexDecode (busyWith 3 0x1000 4 0x2000 16 (bytesAt 0x1000 [0x30, 0x61, 0x31, 0x42]))) 0x2000 2 =
      some ([0x0A, 0x1B].map some) := by
  decide

/-- V40: a trailing CR LF is refused at its index, and nothing is written. -/
theorem test_hexDecode_crlf :
    report (exec .hexDecode (busyWith 3 0x1000 4 0x2000 16 (bytesAt 0x1000 [0x30, 0x30, 0x0D, 0x0A]))) =
      some [0x6, 0, 0, 0, 7, 2] ∧
    bytesAfter (exec .hexDecode (busyWith 3 0x1000 4 0x2000 16 (bytesAt 0x1000 [0x30, 0x30, 0x0D, 0x0A]))) 0x2000 1 =
      some [none] := by
  decide

/-- V47: an illegal word, through the step. -/
theorem test_illegal_word : report (step (busyWith 0x101 0 0 0 16 [])) = some [0x6, 0, 0, 0, 1, 0x101] := by
  decide

/-- A table row placed for the fetch is what the next step runs (V45's word). -/
theorem test_withFetchWord : report (step (State.reset.withFetchWord 32 0)) = some [0x6, 0, 0, 0, 1, 0] := by
  decide

/-! ### The ports (V54, V57, V61, P4) -/

/-- V54: a CMD write while BUSY. -/
theorem test_overrun :
    (hostStep (.regWrite 0x08 2) (busyWith 1 0 5 0 16 [])).regs.read .status = 0x9 ∧
    (hostStep (.regWrite 0x08 2) (busyWith 1 0 5 0 16 [])).regs.cmd = 1 := by
  decide

/-- V57: a write into the source range is recorded and performed. -/
theorem test_hazard_write :
    (hostStep (.memWrite 0x1002 0) (busyWith 1 0x1000 5 0x2000 16 [])).faults = [.hazardWrite] ∧
    (hostStep (.memWrite 0x1002 0) (busyWith 1 0x1000 5 0x2000 16 [])).byteAt 0x1002 = some 0 := by
  decide

/-- V59: just past the destination range there is no hazard. -/
theorem test_no_hazard_past_range :
    (hostStep (.memWrite 0x2010 7) (busyWith 1 0x1000 5 0x2000 16 [])).faults = [] := by
  decide

/-- V61: soft reset discards bit 0. -/
theorem test_soft_reset_discards :
    (hostStep (.regWrite 0x00 3)
      { State.reset with regs := { Regs.reset with irqEn := true, blockWidth := 8 } }).regs = Regs.reset := by
  decide

/-- P4: the aborted command's destination becomes unspecified, its source stays. -/
theorem test_abort :
    (hostStep (.regWrite 0x00 2) (busyWith 1 0 3 0x40 16 [(0, 0x41), (0x40, 9), (0x4F, 9), (0x50, 9)])).mem =
      [(0, 0x41), (0x50, 9)] := by
  decide

/-! ### Witnesses: states and operands that meet the hypotheses of the statements -/

/-- V1's state. -/
def hello : State := busyWith 1 0x1000 5 0x2000 16 (bytesAt 0x1000 [0x48, 0x45, 0x4C, 0x4C, 0x4F])

/-- V20's state. -/
def encoding : State := busyWith 2 0x1000 2 0x2000 16 (bytesAt 0x1000 [0x0A, 0x1B])

/-- V31's state. -/
def decoding : State := busyWith 3 0x1000 4 0x2000 16 (bytesAt 0x1000 [0x30, 0x61, 0x31, 0x42])

/-- A busy block in a run with a hazard recorded (V57). -/
def faulted : State := { hello with faults := [.hazardWrite] }

theorem witness_CommandWordsDecode :
    (0x101 : Word) ≠ 0x00000001#32 ∧ (0x101 : Word) ≠ 0x00000002#32 ∧ (0x101 : Word) ≠ 0x00000003#32 := by decide
theorem witness_DecodeEncodeAgree : (Instr.illegal 0x101).wf = true := by decide
theorem witness_StepRunsLatchedCommand :
    (∀ x r, hello.agenda ≠ .host x :: r) ∧ hello.regs.busy = true ∧
    (∀ x r, State.reset.agenda ≠ .host x :: r) ∧ State.reset.regs.busy = false :=
  ⟨fun _ _ h => (List.cons_ne_nil _ _ h.symm), rfl, fun _ _ h => (List.cons_ne_nil _ _ h.symm), rfl⟩
theorem witness_StepRunsHostTransaction :
    { State.reset with agenda := [.host (.memRead 0), .engine] }.agenda = .host (.memRead 0) :: [.engine] := rfl
theorem witness_StepKeepsInv : State.reset.Inv ∧ ∃ t, step State.reset = .next t :=
  ⟨by decide, exists_next (by decide)⟩
/-- The invariant holds of a busy state too, whose step is the engine's. -/
theorem witness_StepKeepsInv_busy : hello.Inv ∧ ∃ t, step hello = .next t :=
  ⟨by decide, exists_next (by decide)⟩
theorem witness_FaultsNeverCleared :
    (∃ t, step { faulted with agenda := [.host .hardReset] } = .next t) ∧
    FaultKind.hazardWrite ∈ { faulted with agenda := [.host .hardReset] }.faults :=
  ⟨exists_next (by decide), by decide⟩
theorem witness_MemSizeNeverChanges : ∃ t, step hello = .next t := exists_next (by decide)
theorem witness_HardResetValues_PowerOnValues : RegName.status ≠ RegName.blockWidth := by decide
theorem witness_SoftResetAborts : (2 : Word).getLsbD 1 = true ∧ (0xFFFFFFFF : Word).getLsbD 1 = true := by decide
theorem witness_RegReadReturnsValue :
    ¬ ((0x19 : Offset).extractLsb' 0 2 = 0 ∧ (0x19 : Offset) < 0x30) ∧
    ¬ ((0x30 : Offset).extractLsb' 0 2 = 0 ∧ (0x30 : Offset) < 0x30) := by decide
theorem witness_RazWiOffsets :
    (0x2D : Offset).extractLsb' 0 2 ≠ 0 ∧ (0x30 : Offset) ≤ 0x30 ∧ (0x30 : Offset) ≤ 0xFF := by decide
theorem witness_ReadOnlyRegistersIgnoreWrites :
    (0x1C : Offset) ≤ 0x1C ∧ (0x1C : Offset) ≤ 0x2C ∧ (0x2C : Offset) ≤ 0x2C := by decide
theorem witness_CtrlWrite : (3 : Word).getLsbD 1 = true ∧ (1 : Word).getLsbD 1 = false := by decide
theorem witness_OperandWritesStored : State.reset.good ∧ State.reset.regs.busy = false := by decide
theorem witness_IssueLatches : State.reset.regs.busy = false := rfl
theorem witness_OverrunDiscards : hello.regs.busy = true := rfl
theorem witness_ResultsHeld : ∃ t, step { hello with agenda := [.host (.regWrite 0x10 9)] } = .next t :=
  exists_next (by decide)
theorem witness_InterruptLevel :
    (∃ t, exec .segment hello = .next t) ∧ hello.regs.irqEn = false ∧ (2 : Word).getLsbD 1 = true ∧
    State.reset.regs.busy = false ∧
    { State.reset with regs := { Regs.reset with done := true } }.regs.done = true :=
  ⟨exists_next (by decide), by decide⟩
theorem witness_MemWriteStores :
    State.reset.size ≤ (0x10000 : Word).toNat ∧ (0xFFFF : Word).toNat < State.reset.size := by decide
theorem witness_UnspecifiedReadsDrawAgain :
    (0xFFFF : Word).toNat < State.reset.size ∧ State.reset.byteAt (0xFFFF : Word).toNat = none := by decide
theorem witness_CompletionFrame : decode hello.latch.cmd = .segment ∧ ∃ t, exec .segment hello = .next t :=
  ⟨by decide, exists_next (by decide)⟩
/-- A success (V1) and an error (V16's width 0). -/
theorem witness_ErrorsWriteNothing :
    hello.good ∧ report (exec .segment hello) = some [0x2, 16, 1, 11, 0, 0] ∧
    (busyWith 1 0x1000 2 0x2000 0 []).good ∧
    report (exec .segment (busyWith 1 0x1000 2 0x2000 0 [])) = some [0x6, 0, 0, 0, 2, 0] := by decide
theorem witness_CommandReadsSourceOnly :
    hello.good ∧ ∀ x, hello.src ≤ x → x < hello.src + hello.len →
      (hello.mem.write 0x2005 7).read x = hello.byteAt x := by
  refine ⟨by decide, fun x h1 h2 => ?_⟩
  have h3 : 4096 ≤ x := h1
  have h4 : x < 4096 + 5 := h2
  obtain rfl | rfl | rfl | rfl | rfl : x = 4096 ∨ x = 4097 ∨ x = 4098 ∨ x = 4099 ∨ x = 4100 := by omega
  all_goals decide
theorem witness_IdleLatchUnread : State.reset.regs.busy = false := rfl
theorem witness_FaultedCommandCompletes : decode faulted.latch.cmd = .segment ∧ ¬ faulted.good := by decide

/-- V1, and V19c, whose output ends exactly at `MEM_SIZE`; used by SegmentWritesBlocks and SegmentReportsCounts. -/
theorem witness_SegmentWritesBlocks :
    hello.segmentRuns ∧ (busyWith 1 0x1000 2 0xFFF0 16 (bytesAt 0x1000 [0x61, 0x62])).segmentRuns := by decide
theorem witness_SegmentReportsCounts : hello.segmentRuns ∧ hello.len % hello.width ≠ 0 := by decide
/-- V11. -/
theorem witness_SegmentNoExtraBlock :
    (busyWith 1 0x1000 16 0x2000 16 []).segmentRuns ∧
    (busyWith 1 0x1000 16 0x2000 16 []).len % (busyWith 1 0x1000 16 0x2000 16 []).width = 0 := by decide
/-- V19b: empty ranges at the top of the address space. -/
theorem witness_SegmentEmptyInput :
    (busyWith 1 0xFFFFFFFF 0 0xFFFFFFFF 16 []).good ∧ (busyWith 1 0xFFFFFFFF 0 0xFFFFFFFF 16 []).width ≠ 0 ∧
    (busyWith 1 0xFFFFFFFF 0 0xFFFFFFFF 16 []).len = 0 := by decide
/-- V19a. -/
theorem witness_SegmentInPlace :
    let s := busyWith 1 0x300 3 0x300 8 (bytesAt 0x300 [0x78, 0x79, 0x7A])
    s.good ∧ s.width ≠ 0 ∧ 0 < s.len ∧ s.src = s.dst ∧ inRange s.size s.src s.len ∧
      inRange s.size s.dst (paddedLen s.len s.width) := by decide
/-- V19e: width 0 with an illegal source range too. -/
theorem witness_SegmentWidthZero :
    (busyWith 1 0xFFFF 2 0x2000 0 []).good ∧ (busyWith 1 0xFFFF 2 0x2000 0 []).width = 0 := by decide
/-- V18, V19d and V19, one for each clause. -/
theorem witness_SegmentErrorOrder :
    (let s := busyWith 1 0xFFF0 0x20 0x2000 16 [];
      s.good ∧ s.width ≠ 0 ∧ ¬ inRange s.size s.src s.len) ∧
    (let s := busyWith 1 0x1000 2 0xFFF1 16 [];
      s.good ∧ s.width ≠ 0 ∧ inRange s.size s.src s.len ∧ ¬ inRange s.size s.dst (paddedLen s.len s.width)) ∧
    (let s := busyWith 1 0x100 8 0x104 16 [];
      s.good ∧ s.width ≠ 0 ∧ inRange s.size s.src s.len ∧ inRange s.size s.dst (paddedLen s.len s.width) ∧
      overlaps s.src s.len s.dst (paddedLen s.len s.width) ∧ s.src ≠ s.dst) := by decide

/-- V20, and V29, whose output ends exactly at `MEM_SIZE`. -/
theorem witness_HexEncodeWritesText :
    encoding.hexEncodeRuns ∧ (busyWith 2 0x1000 8 0xFFF0 16 []).hexEncodeRuns := by decide
theorem witness_HexEncodeEmptyInput :
    (busyWith 2 0xFFFFFFFF 0 0 16 []).good ∧ (busyWith 2 0xFFFFFFFF 0 0 16 []).len = 0 := by decide
/-- V29a, V28, a length of 2^31 in the largest memory, and V27. -/
theorem witness_HexEncodeErrorOrder :
    (let s := busyWith 2 0 0x80000000 0x2000 16 [];
      s.good ∧ ¬ inRange s.size s.src s.len) ∧
    (let s := busyWith 2 0 0x8000 0x8000 16 [];
      s.good ∧ inRange s.size s.src s.len ∧ ¬ inRange s.size s.dst (2 * s.len)) ∧
    (let s := { busyWith 2 0 0x80000000 0 16 [] with memSize := 0xFFFFFFFF };
      s.good ∧ inRange s.size s.src s.len ∧ 2 ^ 31 ≤ s.len) ∧
    (let s := busyWith 2 0x100 4 0x102 16 [];
      s.good ∧ inRange s.size s.src s.len ∧ inRange s.size s.dst (2 * s.len) ∧
      overlaps s.src s.len s.dst (2 * s.len)) := by decide

theorem witness_HexDecodeWritesBytes :
    decoding.hexDecodeReads ∧
    ∀ i, i < decoding.len → ∃ c v, decoding.byteAt (decoding.src + i) = some c ∧ hexVal c = some v := by
  refine ⟨by decide, fun i hi => ?_⟩
  have h4 : i < 4 := hi
  obtain rfl | rfl | rfl | rfl : i = 0 ∨ i = 1 ∨ i = 2 ∨ i = 3 := by omega
  · exact ⟨0x30, 0, by decide, by decide⟩
  · exact ⟨0x61, 10, by decide, by decide⟩
  · exact ⟨0x31, 1, by decide, by decide⟩
  · exact ⟨0x42, 11, by decide, by decide⟩
/-- V35. -/
theorem witness_HexDecodeOddLength :
    (busyWith 3 0x1000 3 0x2000 16 []).good ∧ (busyWith 3 0x1000 3 0x2000 16 []).len % 2 = 1 := by decide
/-- V36: "0g". -/
theorem witness_HexDecodeBadChar :
    let s := busyWith 3 0x1000 2 0x2000 16 (bytesAt 0x1000 [0x30, 0x67])
    s.hexDecodeReads ∧ 1 < s.len ∧ s.byteAt (s.src + 1) = some 0x67 ∧ hexVal 0x67 = none ∧
      ∀ q, q < 1 → ∃ e v, s.byteAt (s.src + q) = some e ∧ hexVal e = some v := by
  refine ⟨by decide, by decide, by decide, by decide, fun q hq => ?_⟩
  obtain rfl : q = 0 := by omega
  exact ⟨0x30, 0, by decide, by decide⟩
theorem witness_HexDecodeEmptyText :
    (busyWith 3 0x10000 0 0xFFFFFFFF 16 []).good ∧ (busyWith 3 0x10000 0 0xFFFFFFFF 16 []).len = 0 := by decide
/-- A source past the end, V44's destination, V27's shape, and V43 in place. -/
theorem witness_HexDecodeErrorOrder :
    (let s := busyWith 3 0xFFFF 2 0x2000 16 [];
      s.good ∧ s.len % 2 = 0 ∧ ¬ inRange s.size s.src s.len) ∧
    (let s := busyWith 3 0x1000 2 0x10000 16 [];
      s.good ∧ s.len % 2 = 0 ∧ inRange s.size s.src s.len ∧ ¬ inRange s.size s.dst (s.len / 2)) ∧
    (let s := busyWith 3 0x100 4 0x102 16 [];
      s.good ∧ s.len % 2 = 0 ∧ inRange s.size s.src s.len ∧ inRange s.size s.dst (s.len / 2) ∧
      overlaps s.src s.len s.dst (s.len / 2)) ∧
    (let s := busyWith 3 0x200 4 0x200 16 [];
      s.good ∧ s.len % 2 = 0 ∧ inRange s.size s.src s.len ∧ inRange s.size s.dst (s.len / 2) ∧
      s.src = s.dst ∧ 0 < s.len) := by decide
/-- A text of unspecified bytes. -/
theorem witness_HexDecodeFollowsTextRead : (busyWith 3 0x1000 2 0x2000 16 []).hexDecodeReads := by decide
theorem witness_HexCaseInsensitive : (0x41 : Byte) ≤ 0x41 ∧ (0x41 : Byte) ≤ 0x46 ∧ (0x46 : Byte) ≤ 0x46 := by decide
/-- "aB" for the first clause and "a9" for the second. -/
theorem witness_HexTextLowercase :
    ([0x61, 0x42] : List Byte).length % 2 = 0 ∧ (∃ vs, digitValues 0 [0x61, 0x42] = .ok vs) ∧
    ([0x61, 0x39] : List Byte).length % 2 = 0 ∧ ∀ c ∈ ([0x61, 0x39] : List Byte), ∃ v, c = hexLc v :=
  ⟨by decide, ⟨[10, 11], rfl⟩, by decide, fun c hc => by
    rcases List.mem_cons.1 hc with rfl | hc
    · exact ⟨10, by decide⟩
    · exact ⟨9, by rw [List.mem_singleton.1 hc]; decide⟩⟩
/-- V20's text decoded back to 0x3000. -/
theorem witness_HexRoundTripInMemory : encoding.hexEncodeRuns ∧ ∃ t, exec .hexEncode encoding = .next t ∧
    ∃ u : State, u.good ∧ u.mem = t.mem ∧ u.memSize = t.memSize ∧ u.src = encoding.dst ∧
      u.len = 2 * encoding.len ∧ inRange u.size u.dst encoding.len ∧
      ¬ overlaps u.src u.len u.dst encoding.len := by
  obtain ⟨t, ht⟩ := exists_next (o := exec .hexEncode encoding) (by decide)
  refine ⟨by decide, t, ht,
    { t with
      latch := { cmd := 3, srcAddr := 0x2000, srcLen := 4, dstAddr := 0x3000, width := 16 }
      faults := []
      memSize := t.memSize }, rfl, rfl, rfl, rfl, rfl, ?_, ?_⟩
  · have hs : t.memSize = 65536 := by
      have h : (nextOf (exec .hexEncode encoding)).map (fun t => t.memSize) = some 65536 := by decide
      rw [ht] at h
      exact Option.some.inj h
    show inRange t.memSize.toNat 0x3000 2
    rw [hs]
    decide
  · show ¬ overlaps 0x2000 4 0x3000 2
    decide
theorem witness_IllegalWordsComplete :
    State.reset.good ∧ State.reset.regs.busy = false ∧
    (4 : Word) ≠ 0x00000001#32 ∧ (4 : Word) ≠ 0x00000002#32 ∧ (4 : Word) ≠ 0x00000003#32 := by decide

end Sys2Proof.Machine.Tests
end

section
/-! The memory read of the host, case by case, and the statements about it (40_host_interface.md R115, 70_reset_and_hazards.md R232). -/

namespace Sys2Proof.Machine

@[simp] theorem State.hostStep_memRead (s : State) (a : Word) : hostStep (.memRead a) s = s.memRead a := rfl

/-- At or above `MEM_SIZE` a read gives 0. -/
theorem State.memRead_outside {s : State} {a : Word} (ha : s.size ≤ a.toNat) :
    s.memRead a = s.setMemRdata 0 := if_pos ha

/-- In a busy command's destination range a read draws. -/
theorem State.memRead_busyDst {s : State} {a : Word} (ha : ¬ s.size ≤ a.toNat)
    (hd : s.regs.busy = true ∧ s.inDstRange a.toNat) : s.memRead a = s.drawToHost := by
  rw [State.memRead, if_neg ha, if_pos hd]

/-- A read of an unspecified byte draws, inside a busy destination range and outside. -/
theorem State.memRead_unspecified {s : State} {a : Word} (ha : ¬ s.size ≤ a.toNat)
    (hn : s.byteAt a.toNat = none) : s.memRead a = s.drawToHost := by
  rw [State.memRead, if_neg ha, hn, ite_self]

/-- A read of a byte that holds a value, outside the busy destination range, gives that value. -/
theorem State.memRead_held {s : State} {a : Word} {b : Byte} (ha : ¬ s.size ≤ a.toNat)
    (hd : ¬ (s.regs.busy = true ∧ s.inDstRange a.toNat)) (hb : s.byteAt a.toNat = some b) :
    s.memRead a = s.setMemRdata b := by
  rw [State.memRead, if_neg ha, if_neg hd, hb]

/-- No read changes anything but the read port and the count of draws. -/
theorem State.memRead_frame (s : State) (a : Word) :
    ∃ b k, s.memRead a = { s with memRdata := b, draws := k } := by
  rw [State.memRead]
  split
  · exact ⟨_, _, rfl⟩
  · split
    · exact ⟨_, _, rfl⟩
    · split <;> exact ⟨_, _, rfl⟩

/-- Settles O27, from the read's law in each of R115's cases. -/
theorem memReadReturns : Obligations.MemReadReturns := by
  unfold Obligations.MemReadReturns
  intro s a
  rw [State.hostStep_memRead]
  split
  · next ha => exact State.memRead_outside ha
  · next ha =>
    split
    · next hd => exact State.memRead_busyDst ha hd
    · next hd =>
      split
      · next b hb => exact State.memRead_held ha hd hb
      · next hn => exact State.memRead_unspecified ha hn

/-- Settles O29: the first read leaves the memory, so the second meets the same unspecified byte one draw later. -/
theorem unspecifiedReadsDrawAgain : Obligations.UnspecifiedReadsDrawAgain := by
  unfold Obligations.UnspecifiedReadsDrawAgain
  intro s a ha hn
  have hfirst : s.memRead a = s.drawToHost := State.memRead_unspecified (Nat.not_le.2 ha) hn
  have hn' : s.drawToHost.byteAt a.toNat = none := hn
  have hsecond : s.drawToHost.memRead a = s.drawToHost.drawToHost :=
    State.memRead_unspecified (Nat.not_le.2 ha) hn'
  simp only [State.hostStep_memRead, hfirst, hsecond]
  exact ⟨rfl, hn', rfl⟩

end Sys2Proof.Machine
end

section
/-! What every engine step leaves of the host's side, and `MEM_SIZE` along a step (00_scope.md R7, 10_state.md R21). -/

namespace Sys2Proof.Machine

/-- An engine step that answered t ended in t by an error or by a success. -/
theorem exec_next_cases {i : Instr} {s t : State} (h : exec i s = .next t) :
    EndsInError s t ∨ EndsInSuccess i s t := by
  obtain ⟨u, hu, hcases⟩ := exec_cases i s
  cases hu.symm.trans h
  exact hcases

/-- Every engine step leaves the host's side alone: reading the source and writing the destination touch none
of it, and neither does the completion. -/
theorem exec_sameHostSide {i : Instr} {s t : State} (h : exec i s = .next t) : s.sameHostSide t := by
  rcases exec_next_cases h with ⟨code, info, -, rfl | rfl⟩ | ⟨bytes, bc, pad, rfl, -⟩
  · exact (State.completeErr_spec s code info).2.2
  · exact (State.completeErr_spec s.afterSource code info).2.2
  · exact (State.completeOk_spec (s.afterSource.writeDest bytes) bytes.length bc pad).2.2

/-- No engine step changes `MEM_SIZE`. -/
theorem exec_memSize {i : Instr} {s t : State} (h : exec i s = .next t) : t.memSize = s.memSize := by
  obtain ⟨-, -, -, -, -, -, -, -, -, hsize, -⟩ := exec_sameHostSide h
  exact hsize

/-- Settles O11: each of the three kinds of step leaves `MEM_SIZE`. -/
theorem memSizeNeverChanges : Obligations.MemSizeNeverChanges := by
  unfold Obligations.MemSizeNeverChanges
  intro s t h
  rcases step_cases h with ⟨x, -, rfl⟩ | ⟨-, -, hexec⟩ | ⟨-, -, rfl⟩
  · exact (hostStep_keeps x s.popTurn).1
  · exact (exec_memSize hexec).trans (State.setAgenda_memSize s _)
  · rfl

end Sys2Proof.Machine
end

section
/-! The invariant of Safety: each update of State keeps it, so every completion, every host transaction and every step does. -/

namespace Sys2Proof.Machine

/-- Settles O8, by evaluation of the reset state. -/
theorem resetMeetsInv : Obligations.ResetMeetsInv := by
  unfold Obligations.ResetMeetsInv
  decide

/-! ### Counts as words -/

theorem word_zero_le (v : Word) : 0 ≤ v := by
  rw [BitVec.le_def]
  exact Nat.zero_le _

/-- Numbers that fit in 32 bits compare as words as they do as numbers. -/
theorem word_ofNat_le {a b : Nat} (hab : a ≤ b) (hb : b < 2 ^ 32) : BitVec.ofNat 32 a ≤ BitVec.ofNat 32 b := by
  rw [BitVec.le_def, BitVec.toNat_ofNat, BitVec.toNat_ofNat, Nat.mod_eq_of_lt hb, Nat.mod_eq_of_lt (by omega)]
  exact hab

/-! ### Updates of one field -/

/-- The invariant speaks of neither the agenda, the count of draws nor the read ports. -/
theorem State.Inv.of_sameFields {s t : State} (h : s.Inv) (hregs : t.regs = s.regs) (hlatch : t.latch = s.latch)
    (hmem : t.mem = s.mem) (hfaults : t.faults = s.faults) (hsize : t.memSize = s.memSize) : t.Inv := by
  simpa only [State.Inv, State.memOk, State.statusOk, State.resultsOk, State.good, State.size,
    hregs, hlatch, hmem, hfaults, hsize] using h

theorem State.Inv.memOk {s : State} (h : s.Inv) : s.memOk := h.2.1

/-- A new memory is to be canonical and inside `MEM_SIZE`. -/
theorem State.Inv.setMem {s : State} {m : Memory} (h : s.Inv) (hm : (s.setMem m).memOk) : (s.setMem m).Inv := by
  obtain ⟨hsize, -, hstatus, hresults, hfaults⟩ := h
  exact ⟨hsize, hm, hstatus, hresults, hfaults⟩

/-- New registers are to have consistent status and results. -/
theorem State.Inv.setRegs {s : State} {r : Regs} (h : s.Inv) (hstatus : (s.setRegs r).statusOk)
    (hresults : (s.setRegs r).resultsOk) : (s.setRegs r).Inv := by
  obtain ⟨hsize, hmem, -, -, hfaults⟩ := h
  exact ⟨hsize, hmem, hstatus, hresults, hfaults⟩

/-- The results stay consistent where the five result registers, the faults and `MEM_SIZE` stay. -/
theorem State.resultsOk_of_sameResults {s t : State} (h : s.resultsOk) (hr : s.sameResults t)
    (hfaults : t.faults = s.faults) (hsize : t.memSize = s.memSize) : t.resultsOk := by
  obtain ⟨hout, hblocks, hpad, hcode, hinfo⟩ := hr
  simpa only [State.resultsOk, State.good, hout, hblocks, hpad, hcode, hinfo, hfaults, hsize] using h

/-- A write to a register that is neither a status bit, `CMD` nor a result keeps the invariant. -/
theorem State.Inv.setRegs_of_same {s : State} {r : Regs} (h : s.Inv) (hbusy : r.busy = s.regs.busy)
    (hdone : r.done = s.regs.done) (herror : r.error = s.regs.error) (hcmd : r.cmd = s.regs.cmd)
    (hr : s.sameResults (s.setRegs r)) : (s.setRegs r).Inv := by
  have ⟨_, _, hstatus, hresults, _⟩ := h
  have ⟨_, _, _, hcode, _⟩ := hr
  refine h.setRegs ?_ (State.resultsOk_of_sameResults hresults hr rfl rfl)
  rw [State.setRegs_regs] at hcode
  simpa only [State.statusOk, State.setRegs_regs, State.setRegs_latch, hbusy, hdone, herror, hcmd, hcode]
    using hstatus

/-- Registers at their reset values report an empty success. -/
theorem State.Inv.resetRegs {s : State} (h : s.Inv) : (s.setRegs Regs.reset).Inv :=
  h.setRegs ⟨nofun, nofun⟩ fun _ =>
    ⟨fun hc => absurd rfl hc, fun _ => rfl, word_zero_le _, BitVec.le_refl _, BitVec.le_refl _⟩

/-! ### The buffer memory -/

theorem State.memOk.write {s : State} (h : s.memOk) {a : Nat} (ha : a < s.size) (b : Byte) :
    (s.setMem (s.mem.write a b)).memOk := by
  obtain ⟨hwf, hbelow⟩ := h
  refine ⟨Memory.write_wf hwf a b, fun c hc => ?_⟩
  rcases Memory.mem_write hc with rfl | hc
  · exact ha
  · exact hbelow c hc

theorem State.memOk.writeDest {s : State} (h : s.memOk) {bytes : List Byte}
    (hrange : inRange s.size s.dst bytes.length) : (s.writeDest bytes).memOk := by
  obtain ⟨hwf, hbelow⟩ := h
  refine ⟨Memory.writeList_wf hwf _ bytes, fun c hc => ?_⟩
  rcases Memory.mem_writeList hc with ⟨hge, hlt⟩ | hc
  · show c.1 < s.size
    omega
  · exact hbelow c hc

theorem State.memOk.forget {s : State} (h : s.memOk) (a n : Nat) : (s.setMem (s.mem.forget a n)).memOk :=
  ⟨Memory.forget_wf h.1 a n, fun c hc => h.2 c (Memory.mem_forget hc)⟩

/-! ### The engine -/

/-- Reading the source only counts draws. -/
theorem State.Inv.afterSource {s : State} (h : s.Inv) : s.afterSource.Inv :=
  h.of_sameFields rfl rfl rfl rfl rfl

/-- Writing a legal destination range keeps the invariant. -/
theorem State.Inv.writeDest {s : State} (h : s.Inv) {bytes : List Byte}
    (hrange : inRange s.size s.dst bytes.length) : (s.writeDest bytes).Inv :=
  h.setMem (h.memOk.writeDest hrange)

/-- Once a hazard is recorded nothing is claimed of the results; ERROR is drawn with the code. -/
theorem State.Inv.completeUndefined {s : State} (h : s.Inv) (hbad : ¬ s.good) : s.completeUndefined.Inv := by
  obtain ⟨hsize, hmem, -, -, hfaults⟩ := h
  refine ⟨hsize, hmem.forget _ _, ⟨nofun, fun he => ?_⟩, fun hg => absurd hg hbad, hfaults⟩
  rw [State.completeUndefined_error] at he
  exact bne_iff_ne.1 he

/-- A failed completion reports an error code and no output. -/
theorem State.Inv.completeErr {s : State} (h : s.Inv) {code : ErrCode} (hcode : code ≠ .noError) (info : Word) :
    (s.completeErr code info).Inv := by
  by_cases hg : s.good
  · obtain ⟨hsize, hmem, -, -, hfaults⟩ := h
    rw [State.completeErr_good hg code info]
    exact ⟨hsize, hmem, ⟨nofun, fun _ => hcode⟩,
      fun _ => ⟨fun _ => ⟨rfl, rfl, rfl⟩, fun hc => absurd hc hcode,
        word_zero_le _, BitVec.le_refl _, BitVec.le_refl _⟩,
      hfaults⟩
  · rw [State.completeErr_faulted hg]
    exact h.completeUndefined hg

/-- A successful completion whose output fits in the buffer memory reports counts within it. -/
theorem State.Inv.completeOk {s : State} (h : s.Inv) {out bc pad : Nat} (hout : out ≤ s.size) (hbc : bc ≤ out)
    (hpad : pad ≤ out) : (s.completeOk out bc pad).Inv := by
  by_cases hg : s.good
  · obtain ⟨hsize, hmem, -, -, hfaults⟩ := h
    have hfit : out < 2 ^ 32 := Nat.lt_of_le_of_lt hout s.memSize.isLt
    have houtSize : BitVec.ofNat 32 out ≤ s.memSize := by
      simpa using word_ofNat_le hout s.memSize.isLt
    rw [State.completeOk_good hg]
    exact ⟨hsize, hmem, ⟨nofun, nofun⟩,
      fun _ => ⟨fun hc => absurd rfl hc, fun _ => rfl, houtSize, word_ofNat_le hbc hfit, word_ofNat_le hpad hfit⟩,
      hfaults⟩
  · rw [State.completeOk_faulted hg]
    exact h.completeUndefined hg

/-- Every engine step keeps the invariant: an error wrote nothing, and a success wrote a legal range. -/
theorem exec_keeps_inv {i : Instr} {s t : State} (h : s.Inv) (hexec : exec i s = .next t) : t.Inv := by
  rcases exec_next_cases hexec with ⟨code, info, hcode, rfl | rfl⟩ | ⟨bytes, bc, pad, rfl, -, hrange, hbc, hpad⟩
  · exact h.completeErr hcode info
  · exact h.afterSource.completeErr hcode info
  · have hout : bytes.length ≤ s.size := by omega
    exact (h.afterSource.writeDest hrange).completeOk hout hbc hpad

/-! ### The host -/

/-- An issue sets BUSY with DONE and ERROR 0, and `CMD` and the latch to one word. -/
theorem State.Inv.issue {s : State} (h : s.Inv) (c : Word) : (s.issue c).Inv := by
  obtain ⟨hsize, hmem, -, hresults, hfaults⟩ := h
  rw [State.issue_eq]
  exact ⟨hsize, hmem, ⟨fun _ => ⟨rfl, rfl, rfl⟩, nofun⟩, hresults, hfaults⟩

/-- A soft reset forgets at most the aborted destination range. -/
theorem State.Inv.softReset {s : State} (h : s.Inv) : s.softReset.Inv := by
  rw [State.softReset]
  split
  · exact (h.setMem (h.memOk.forget _ _)).resetRegs
  · exact h.resetRegs

theorem State.Inv.hardReset {s : State} (h : s.Inv) : s.hardReset.Inv :=
  (h.setMem ⟨List.Pairwise.nil, fun _ hc => absurd hc List.not_mem_nil⟩).resetRegs

/-- Clearing status bits sets none. -/
theorem State.Inv.clearStatus {s : State} (h : s.Inv) (v : Word) : (s.setRegs (s.regs.clearStatus v)).Inv := by
  have ⟨_, _, ⟨hbusy, herror⟩, hresults, _⟩ := h
  refine h.setRegs ⟨fun hb => ?_, fun he => herror (Bool.and_eq_true_iff.1 he).1⟩ hresults
  obtain ⟨hdone, herr, hcmd⟩ := hbusy hb
  exact ⟨by simp [Regs.clearStatus, hdone], by simp [Regs.clearStatus, herr], hcmd⟩

/-- A CTRL write resets, or touches `IRQ_EN` only. -/
theorem State.Inv.writeCtrl {s : State} (h : s.Inv) (v : Word) : (s.writeCtrl v).Inv := by
  rw [State.writeCtrl]
  split
  · exact h.softReset
  · exact h.setRegs_of_same rfl rfl rfl rfl ⟨rfl, rfl, rfl, rfl, rfl⟩

/-- A CMD write issues, or touches OVERRUN only. -/
theorem State.Inv.writeCmd {s : State} (h : s.Inv) (c : Word) : (s.writeCmd c).Inv := by
  rw [State.writeCmd]
  split
  · exact h.setRegs_of_same rfl rfl rfl rfl ⟨rfl, rfl, rfl, rfl, rfl⟩
  · exact h.issue c

theorem State.Inv.writeReg {s : State} (h : s.Inv) (r : RegName) (v : Word) : (s.writeReg r v).Inv := by
  cases r with
  | ctrl => exact h.writeCtrl v
  | status => exact h.clearStatus v
  | cmd => exact h.writeCmd v
  | srcAddr | srcLen | dstAddr | blockWidth =>
    exact h.setRegs_of_same rfl rfl rfl rfl ⟨rfl, rfl, rfl, rfl, rfl⟩
  | outLen | blockCount | padCount | errCode | errInfo => exact h

theorem State.Inv.regWrite {s : State} (h : s.Inv) (off : Offset) (v : Word) : (s.regWrite off v).Inv := by
  rw [State.regWrite]
  split
  · exact h
  · exact h.writeReg _ v

theorem State.Inv.regRead {s : State} (h : s.Inv) (off : Offset) : (s.regRead off).Inv := by
  rw [State.regRead]
  split <;> exact h.of_sameFields rfl rfl rfl rfl rfl

theorem State.Inv.memRead {s : State} (h : s.Inv) (a : Word) : (s.memRead a).Inv := by
  obtain ⟨b, k, hread⟩ := s.memRead_frame a
  rw [hread]
  exact h.of_sameFields rfl rfl rfl rfl rfl

/-- Recording a fault repeats none, and ends what is claimed of the results. -/
theorem State.Inv.raise {s : State} (h : s.Inv) (k : FaultKind) : (s.raise k).Inv := by
  obtain ⟨hsize, hmem, hstatus, -, hfaults⟩ := h
  have hbad : ¬ (s.raise k).good := List.ne_nil_of_mem ((s.mem_raise k k).2 (.inl rfl))
  exact ⟨hsize, hmem, hstatus, fun hg => absurd hg hbad, State.raise_nodup hfaults k⟩

/-- A memory write stores a byte below `MEM_SIZE`, and records a hazard first where there is one. -/
theorem State.Inv.memWrite {s : State} (h : s.Inv) (a : Word) (b : Byte) : (s.memWrite a b).Inv := by
  rw [State.memWrite]
  split
  · exact h
  · next ha =>
    have hwrite := h.memOk.write (Nat.not_le.1 ha) b
    dsimp only
    split
    · exact (h.raise _).setMem hwrite
    · exact h.setMem hwrite

theorem hostStep_keeps_inv {s : State} (h : s.Inv) (x : HostTxn) : (hostStep x s).Inv := by
  cases x with
  | regRead off => exact h.regRead off
  | regWrite off v => exact h.regWrite off v
  | memRead a => exact h.memRead a
  | memWrite a b => exact h.memWrite a b
  | hardReset => exact h.hardReset

/-! ### The step -/

theorem State.Inv.popTurn {s : State} (h : s.Inv) : s.popTurn.Inv :=
  h.of_sameFields rfl rfl rfl rfl rfl

/-- Settles O9: a host transaction, an engine step and an idle turn each keep the invariant. -/
theorem stepKeepsInv : Obligations.StepKeepsInv := by
  unfold Obligations.StepKeepsInv
  intro s t h hstep
  rcases step_cases hstep with ⟨x, -, rfl⟩ | ⟨-, -, hexec⟩ | ⟨-, -, rfl⟩
  · exact hostStep_keeps_inv h.popTurn x
  · exact exec_keeps_inv h.popTurn hexec
  · exact h.popTurn

end Sys2Proof.Machine
end

section
/-! The register port, offset by offset: what a read returns, what a write leaves, and the statements about both (10_state.md R22, R33, R37, 40_host_interface.md R111, R112). -/

namespace Sys2Proof.Machine

/-- The offset column of R22. -/
def RegName.offset : RegName → Offset
  | .ctrl => 0x00
  | .status => 0x04
  | .cmd => 0x08
  | .srcAddr => 0x0C
  | .srcLen => 0x10
  | .dstAddr => 0x14
  | .blockWidth => 0x18
  | .outLen => 0x1C
  | .blockCount => 0x20
  | .padCount => 0x24
  | .errCode => 0x28
  | .errInfo => 0x2C

/-- A register stands at its own offset and at no other. -/
theorem RegName.ofOffset_eq_some_iff {off : Offset} {r : RegName} :
    RegName.ofOffset off = some r ↔ off = r.offset := by
  constructor
  · revert off
    cases r <;> decide
  · rintro rfl
    cases r <;> rfl

@[simp] theorem RegName.ofOffset_offset (r : RegName) : RegName.ofOffset r.offset = some r :=
  RegName.ofOffset_eq_some_iff.2 rfl

/-! ### Reads -/

/-- A register read drives `reg_rdata` with the register's value, 0 where there is none, and does nothing else. -/
theorem State.regRead_eq (s : State) (off : Offset) :
    s.regRead off = s.setRegRdata ((RegName.ofOffset off).elim 0 s.regs.read) := by
  rw [State.regRead]
  cases RegName.ofOffset off <;> rfl

@[simp] theorem State.regRead_regs (s : State) (off : Offset) : (s.regRead off).regs = s.regs := by
  rw [State.regRead_eq, State.setRegRdata_regs]

/-- A read at a register's offset returns that register. -/
theorem State.regRead_offset_regRdata (s : State) (r : RegName) :
    (s.regRead r.offset).regRdata = s.regs.read r := by
  rw [State.regRead_eq, RegName.ofOffset_offset]
  rfl

/-- The fault set is in no register. -/
theorem State.regRead_setFaults_regRdata (s : State) (f : List FaultKind) (off : Offset) :
    ((s.setFaults f).regRead off).regRdata = (s.regRead off).regRdata := by
  rw [State.regRead_eq, State.regRead_eq]
  rfl

/-- The reset column of R22. -/
theorem Regs.reset_read (r : RegName) : Regs.reset.read r = if r = .blockWidth then 16 else 0 := by
  cases r <;> rfl

theorem ErrCode.toWord_lt (e : ErrCode) : e.toWord.toNat < 8 := by
  cases e <;> decide

/-- Settles O13, from the reset column. -/
theorem powerOnValues : Obligations.PowerOnValues := by
  unfold Obligations.PowerOnValues
  exact ⟨Regs.reset_read .blockWidth, fun r hr => (Regs.reset_read r).trans (if_neg hr), rfl, rfl, fun _ => rfl⟩

/-- Settles O25: what stands in `ERR_CODE` is the number of one of the eight codes. -/
theorem errorCodeNumbers : Obligations.ErrorCodeNumbers := by
  unfold Obligations.ErrorCodeNumbers
  refine ⟨rfl, rfl, rfl, rfl, rfl, rfl, rfl, rfl, fun s => ?_⟩
  calc (s.regRead RegName.errCode.offset).regRdata.toNat
      = s.regs.errCode.toWord.toNat := congrArg BitVec.toNat (s.regRead_offset_regRdata .errCode)
    _ < 8 := ErrCode.toWord_lt _

/-! ### Writes -/

/-- A register write reaches the register at its offset, or none. -/
theorem State.regWrite_cases (s : State) (off : Offset) (v : Word) :
    s.regWrite off v = s ∨ ∃ r : RegName, off = r.offset ∧ s.regWrite off v = s.writeReg r v := by
  rw [State.regWrite]
  split
  · exact .inl rfl
  · next r hr => exact .inr ⟨r, RegName.ofOffset_eq_some_iff.1 hr, rfl⟩

/-- Settles O17: the registers from 0x1C to 0x2C are the five results, and no other. -/
theorem readOnlyRegistersIgnoreWrites : Obligations.ReadOnlyRegistersIgnoreWrites := by
  unfold Obligations.ReadOnlyRegistersIgnoreWrites
  intro s off v hlow _
  rcases s.regWrite_cases off v with h | ⟨r, rfl, h⟩
  · exact h
  · refine h.trans ?_
    cases r with
    | outLen | blockCount | padCount | errCode | errInfo => rfl
    | ctrl | status | cmd | srcAddr | srcLen | dstAddr | blockWidth => exact absurd hlow (by decide)

/-! ### Where the result registers stay -/

/-- The results are registers. -/
theorem State.sameResults_of_regs {s t : State} (h : t.regs = s.regs) : s.sameResults t := by
  simp only [State.sameResults, h, and_self]

/-- A write that is no soft reset leaves the results. -/
theorem State.writeReg_sameResults (s : State) (r : RegName) {v : Word}
    (h : r = .ctrl → v.getLsbD 1 = false) : s.sameResults (s.writeReg r v) := by
  cases r with
  | ctrl =>
    rw [State.writeReg, State.writeCtrl, h rfl]
    exact ⟨rfl, rfl, rfl, rfl, rfl⟩
  | cmd =>
    rw [State.writeReg, State.writeCmd]
    split <;> exact ⟨rfl, rfl, rfl, rfl, rfl⟩
  | status | srcAddr | srcLen | dstAddr | blockWidth | outLen | blockCount | padCount | errCode | errInfo =>
    exact ⟨rfl, rfl, rfl, rfl, rfl⟩

/-- A register write leaves the results, but for a CTRL write with bit 1. -/
theorem State.regWrite_sameResults (s : State) (off : Offset) (v : Word) :
    s.sameResults (s.regWrite off v) ∨ (off = 0x00 ∧ v.getLsbD 1 = true) := by
  rcases s.regWrite_cases off v with h | ⟨r, rfl, h⟩
  · exact .inl (State.sameResults_of_regs (congrArg State.regs h))
  · rw [h]
    by_cases hreset : r = .ctrl ∧ v.getLsbD 1 = true
    · obtain ⟨rfl, hv⟩ := hreset
      exact .inr ⟨rfl, hv⟩
    · exact .inl (s.writeReg_sameResults r fun hr => Bool.eq_false_iff.2 fun hv => hreset ⟨hr, hv⟩)

@[simp] theorem State.memRead_regs (s : State) (a : Word) : (s.memRead a).regs = s.regs := by
  obtain ⟨b, k, hread⟩ := s.memRead_frame a
  rw [hread]

@[simp] theorem State.memWrite_regs (s : State) (a : Word) (b : Byte) : (s.memWrite a b).regs = s.regs := by
  rw [State.memWrite]
  split
  · rfl
  · dsimp only
    split <;> rfl

/-- A host transaction leaves the results, but for the two resets. -/
theorem hostStep_sameResults (x : HostTxn) (s : State) :
    s.sameResults (hostStep x s) ∨ x = .hardReset ∨ ∃ v, x = .regWrite 0x00 v ∧ v.getLsbD 1 = true := by
  cases x with
  | regRead off => exact .inl (State.sameResults_of_regs (s.regRead_regs off))
  | regWrite off v =>
    rcases s.regWrite_sameResults off v with h | ⟨rfl, hv⟩
    · exact .inl h
    · exact .inr (.inr ⟨v, rfl, hv⟩)
  | memRead a => exact .inl (State.sameResults_of_regs (s.memRead_regs a))
  | memWrite a b => exact .inl (State.sameResults_of_regs (s.memWrite_regs a b))
  | hardReset => exact .inr (.inl rfl)

/-- Settles O23: a host transaction leaves the results unless it resets, and an idle turn leaves the registers. -/
theorem resultsHeld : Obligations.ResultsHeld := by
  unfold Obligations.ResultsHeld
  intro s t hstep
  rcases step_cases hstep with ⟨x, hturn, rfl⟩ | ⟨hturn, hbusy, -⟩ | ⟨-, -, rfl⟩
  · rw [hturn]
    rcases hostStep_sameResults x s.popTurn with h | rfl | ⟨v, rfl, hv⟩
    · exact .inl h
    · exact .inr (.inr (.inl rfl))
    · exact .inr (.inr (.inr ⟨v, rfl, hv⟩))
  · exact .inr (.inl ⟨hturn, hbusy⟩)
  · exact .inl (State.sameResults_of_regs rfl)

/-! ### The fault set -/

/-- No engine step changes `FAULTS`. -/
theorem exec_faults {i : Instr} {s t : State} (h : exec i s = .next t) : t.faults = s.faults := by
  obtain ⟨-, -, -, -, -, -, -, -, hfaults, -⟩ := exec_sameHostSide h
  exact hfaults

/-- No step clears a recorded fault. -/
theorem step_keeps_fault {s t : State} (hstep : step s = .next t) {k : FaultKind} (hk : k ∈ s.faults) :
    k ∈ t.faults := by
  rcases step_cases hstep with ⟨x, -, rfl⟩ | ⟨-, -, hexec⟩ | ⟨-, -, rfl⟩
  · obtain ⟨-, -, hkeeps⟩ := hostStep_keeps x s.popTurn
    exact hkeeps k hk
  · rw [exec_faults hexec]
    exact hk
  · exact hk

/-- Settles O10: no step clears a fault, and a register read does not look at the fault set. -/
theorem faultsNeverCleared : Obligations.FaultsNeverCleared := by
  unfold Obligations.FaultsNeverCleared
  exact ⟨rfl, fun _ _ hstep _ hk => step_keeps_fault hstep hk, State.regRead_setFaults_regRdata⟩

end Sys2Proof.Machine
end

section
/-! Whose turn a step runs, and that an idle block's step does not look at the latch (20_memory.md R70, 10_state.md R35, R36). -/

namespace Sys2Proof.Machine

/-- The engine has the turn when no host transaction is at the head of the agenda. -/
theorem State.turn_eq_engine {s : State} (h : ∀ x r, s.agenda ≠ .host x :: r) : s.turn = .engine := by
  rw [State.turn]
  split
  · rfl
  · next e r hagenda =>
    cases e with
    | host x => exact absurd hagenda (h x r)
    | engine => rfl

theorem step_host {s : State} {x : HostTxn} (h : s.turn = .host x) : step s = .next (hostStep x s.popTurn) := by
  rw [step, h]

theorem step_engine_busy {s : State} (h : s.turn = .engine) (hbusy : s.regs.busy = true) :
    step s = exec s.latched s.popTurn := by
  rw [step, h]
  exact if_pos hbusy

theorem step_engine_idle {s : State} (h : s.turn = .engine) (hidle : s.regs.busy = false) :
    step s = .next s.popTurn := by
  rw [step, h]
  exact if_neg (Bool.eq_false_iff.1 hidle)

/-- Settles O4, from the two laws of the engine's turn. -/
theorem stepRunsLatchedCommand : Obligations.StepRunsLatchedCommand := by
  unfold Obligations.StepRunsLatchedCommand
  intro s h
  exact ⟨step_engine_busy (State.turn_eq_engine h), step_engine_idle (State.turn_eq_engine h)⟩

/-- Two states that differ in the latch at most, and not at all with a command in flight. -/
def DifferInIdleLatch (t u : State) : Prop :=
  u = { t with latch := u.latch } ∧ (t.regs.busy = true → u.latch = t.latch)

theorem DifferInIdleLatch.refl (s : State) : DifferInIdleLatch s s := ⟨rfl, fun _ => rfl⟩

theorem DifferInIdleLatch.of_setLatch {t u : State} (hidle : t.regs.busy = false) (l : Latch)
    (hu : u = t.setLatch l) : DifferInIdleLatch t u := by
  subst hu
  exact ⟨rfl, fun hbusy => absurd hbusy (Bool.eq_false_iff.1 hidle)⟩

/-- A write to an idle block makes nothing of the old latch: an issue replaces it, a reset leaves it. -/
theorem State.writeReg_setLatch {s : State} (hidle : s.regs.busy = false) (l : Latch) (r : RegName) (v : Word) :
    DifferInIdleLatch (s.writeReg r v) ((s.setLatch l).writeReg r v) := by
  cases r with
  | ctrl =>
    simp only [State.writeReg, State.writeCtrl]
    split
    · rw [State.softReset_idle hidle, State.softReset_idle (s := s.setLatch l) hidle]
      exact .of_setLatch rfl l rfl
    · exact .of_setLatch hidle l rfl
  | cmd =>
    simp only [State.writeReg, State.writeCmd, State.setLatch_regs, hidle]
    exact .refl (s.issue v)
  | status | srcAddr | srcLen | dstAddr | blockWidth | outLen | blockCount | padCount | errCode | errInfo =>
    exact .of_setLatch hidle l rfl

theorem State.regWrite_setLatch {s : State} (hidle : s.regs.busy = false) (l : Latch) (off : Offset) (v : Word) :
    DifferInIdleLatch (s.regWrite off v) ((s.setLatch l).regWrite off v) := by
  simp only [State.regWrite]
  split
  · exact .of_setLatch hidle l rfl
  · exact State.writeReg_setLatch hidle l _ v

/-- With no command in flight there is no destination range that hides a byte from the host. -/
theorem State.memRead_held_idle {s : State} (hidle : s.regs.busy = false) {a : Word} {b : Byte}
    (ha : ¬ s.size ≤ a.toNat) (hb : s.byteAt a.toNat = some b) : s.memRead a = s.setMemRdata b :=
  State.memRead_held ha (fun hd => Bool.eq_false_iff.1 hidle hd.1) hb

/-- A read from an idle block gives 0, the byte, or a draw, whatever the latch holds. -/
theorem State.memRead_setLatch {s : State} (hidle : s.regs.busy = false) (l : Latch) (a : Word) :
    (s.setLatch l).memRead a = (s.memRead a).setLatch l := by
  by_cases ha : s.size ≤ a.toNat
  · rw [State.memRead_outside ha, State.memRead_outside (s := s.setLatch l) ha]
    rfl
  · cases hb : s.byteAt a.toNat with
    | none =>
      rw [State.memRead_unspecified ha hb, State.memRead_unspecified (s := s.setLatch l) ha hb]
      rfl
    | some b =>
      rw [State.memRead_held_idle hidle ha hb, State.memRead_held_idle (s := s.setLatch l) hidle ha hb]
      rfl

/-- A write to an idle block is no hazard. -/
theorem State.memWrite_idle {s : State} (hidle : s.regs.busy = false) (a : Word) (b : Byte) :
    s.memWrite a b = if s.size ≤ a.toNat then s else s.setMem (s.mem.write a.toNat b) := by
  simp [State.memWrite, hidle]

theorem State.memWrite_setLatch {s : State} (hidle : s.regs.busy = false) (l : Latch) (a : Word) (b : Byte) :
    (s.setLatch l).memWrite a b = (s.memWrite a b).setLatch l := by
  rw [State.memWrite_idle hidle, State.memWrite_idle (s := s.setLatch l) hidle]
  by_cases ha : s.size ≤ a.toNat
  · rw [if_pos ha]
    exact if_pos ha
  · rw [if_neg ha]
    exact if_neg ha

/-- A transaction on an idle block makes nothing of its latch. -/
theorem hostStep_setLatch {s : State} (hidle : s.regs.busy = false) (l : Latch) (x : HostTxn) :
    DifferInIdleLatch (hostStep x s) (hostStep x (s.setLatch l)) := by
  cases x with
  | regRead off =>
    rw [hostStep, hostStep, State.regRead_eq, State.regRead_eq]
    exact .of_setLatch hidle l rfl
  | regWrite off v => exact State.regWrite_setLatch hidle l off v
  | memRead a =>
    exact .of_setLatch ((congrArg Regs.busy (s.memRead_regs a)).trans hidle) l (State.memRead_setLatch hidle l a)
  | memWrite a b =>
    exact .of_setLatch ((congrArg Regs.busy (s.memWrite_regs a b)).trans hidle) l
      (State.memWrite_setLatch hidle l a b)
  | hardReset => exact .of_setLatch rfl l rfl

/-- Settles O35: the two states have the same turn, and neither a transaction nor an idle turn looks at the latch. -/
theorem idleLatchUnread : Obligations.IdleLatchUnread := by
  unfold Obligations.IdleLatchUnread
  intro s l hidle
  cases hturn : s.turn with
  | host x =>
    exact ⟨_, _, step_host hturn, step_host (s := s.setLatch l) hturn,
      hostStep_setLatch (s := s.popTurn) hidle l x⟩
  | engine =>
    exact ⟨_, _, step_engine_idle hturn hidle, step_engine_idle (s := s.setLatch l) hturn hidle,
      DifferInIdleLatch.of_setLatch (t := s.popTurn) hidle l rfl⟩

end Sys2Proof.Machine
end

section
/-! What an engine step leaves unchanged outside its destination range, and that it looks at no live register (20_memory.md R63, 10_state.md R35, 40_host_interface.md R126). -/

namespace Sys2Proof.Machine

/-! ### The bytes outside the destination range -/

theorem State.completeUndefined_sameBytesOutside (s : State) :
    s.sameBytesOutside s.completeUndefined s.dst s.latch.outLen :=
  fun x hx => (Memory.read_forget s.mem s.dst s.latch.outLen x).trans (if_neg hx)

/-- A failed completion changes no byte in a good run, and no byte outside the range in any run. -/
theorem State.completeErr_sameBytesOutside (s : State) (code : ErrCode) (info : Word) :
    s.sameBytesOutside (s.completeErr code info) s.dst s.latch.outLen := by
  by_cases hg : s.good
  · rw [State.completeErr_good hg code info]
    exact fun _ _ => rfl
  · rw [State.completeErr_faulted hg]
    exact s.completeUndefined_sameBytesOutside

/-- A successful completion itself changes no byte in a good run, and none outside the range in any run. -/
theorem State.completeOk_sameBytesOutside (s : State) (out bc pad : Nat) :
    s.sameBytesOutside (s.completeOk out bc pad) s.dst s.latch.outLen := by
  by_cases hg : s.good
  · rw [State.completeOk_good hg]
    exact fun _ _ => rfl
  · rw [State.completeOk_faulted hg]
    exact s.completeUndefined_sameBytesOutside

theorem State.writeDest_sameBytesOutside (s : State) (bytes : List Byte) :
    s.sameBytesOutside (s.writeDest bytes) s.dst bytes.length :=
  fun _ hx => Memory.read_writeList_outside s.mem bytes hx

/-- An engine step on the latched command changes no byte outside its destination range. -/
theorem exec_sameBytesOutside {s t : State} (h : exec s.latched s = .next t) :
    s.sameBytesOutside t s.dst s.latch.outLen := by
  rcases exec_next_cases h with ⟨code, info, -, rfl | rfl⟩ | ⟨bytes, bc, pad, rfl, hlen, -⟩
  · exact s.completeErr_sameBytesOutside code info
  · exact s.afterSource.completeErr_sameBytesOutside code info
  · intro x hx
    have hwrite : ¬ (s.dst ≤ x ∧ x < s.dst + bytes.length) := by
      rw [hlen]
      exact hx
    exact ((s.afterSource.writeDest bytes).completeOk_sameBytesOutside _ bc pad x hx).trans
      (s.afterSource.writeDest_sameBytesOutside bytes x hwrite)

/-- Every engine step ends the command. -/
theorem exec_status {i : Instr} {s t : State} (h : exec i s = .next t) :
    t.regs.busy = false ∧ t.regs.done = true := by
  rcases exec_next_cases h with ⟨code, info, -, rfl | rfl⟩ | ⟨bytes, bc, pad, rfl, -⟩
  · have ⟨hbusy, hdone, _⟩ := s.completeErr_spec code info
    exact ⟨hbusy, hdone⟩
  · have ⟨hbusy, hdone, _⟩ := s.afterSource.completeErr_spec code info
    exact ⟨hbusy, hdone⟩
  · have ⟨hbusy, hdone, _⟩ := (s.afterSource.writeDest bytes).completeOk_spec bytes.length bc pad
    exact ⟨hbusy, hdone⟩

/-- Settles O31, from what an engine step leaves in the status, the host's side and the bytes. -/
theorem completionFrame : Obligations.CompletionFrame := by
  unfold Obligations.CompletionFrame
  rintro _ s t rfl h
  obtain ⟨hbusy, hdone⟩ := exec_status h
  exact ⟨hbusy, hdone, exec_sameHostSide h, exec_sameBytesOutside h⟩

/-! ### The live registers -/

/-- How an engine step ends: failed before or after the source was read, or successful with these bytes written. -/
inductive Ending where
  | failsUnread (code : ErrCode) (info : Word)
  | failsRead (code : ErrCode) (info : Word)
  | succeeds (bytes : List Byte) (out bc pad : Nat)

/-- The state that an engine step which ends so answers. -/
def Ending.state (e : Ending) (s : State) : State :=
  match e with
  | .failsUnread code info => s.completeErr code info
  | .failsRead code info => s.afterSource.completeErr code info
  | .succeeds bytes out bc pad => (s.afterSource.writeDest bytes).completeOk out bc pad

/-- The engine step on i ends in one way from s with any register window. -/
def EndsAsWithAnyRegs (i : Instr) (s : State) (e : Ending) : Prop :=
  ∀ r : Regs, exec i (s.setRegs r) = .next (e.state (s.setRegs r))

/-- SEGMENT's checks and bytes come from the latch, the memory and `MEM_SIZE`. -/
theorem execSegment_ending (s : State) : ∃ e, EndsAsWithAnyRegs .segment s e := by
  by_cases hw : s.width = 0
  · exact ⟨.failsUnread .badWidth 0, fun _ => if_pos hw⟩
  by_cases hsrc : ¬ inRange s.size s.src s.len
  · exact ⟨.failsUnread .rangeSrc 0, fun _ => (if_neg hw).trans (if_pos hsrc)⟩
  by_cases hdst : ¬ inRange s.size s.dst (paddedLen s.len s.width)
  · exact ⟨.failsUnread .rangeDst 0, fun _ => (if_neg hw).trans ((if_neg hsrc).trans (if_pos hdst))⟩
  by_cases hover : overlaps s.src s.len s.dst (paddedLen s.len s.width) ∧ s.src ≠ s.dst
  · exact ⟨.failsUnread .overlap 0,
      fun _ => (if_neg hw).trans ((if_neg hsrc).trans ((if_neg hdst).trans (if_pos hover)))⟩
  · exact ⟨.succeeds (s.sourceBytes ++ List.replicate (padOf s.len s.width) 0#8) (paddedLen s.len s.width)
        (ceilDiv s.len s.width) (padOf s.len s.width),
      fun _ => (if_neg hw).trans ((if_neg hsrc).trans ((if_neg hdst).trans (if_neg hover)))⟩

/-- HEX_ENCODE's checks and text come from the latch, the memory and `MEM_SIZE`. -/
theorem execHexEncode_ending (s : State) : ∃ e, EndsAsWithAnyRegs .hexEncode s e := by
  by_cases hsrc : ¬ inRange s.size s.src s.len
  · exact ⟨.failsUnread .rangeSrc 0, fun _ => if_pos hsrc⟩
  by_cases hdst : ¬ inRange s.size s.dst (2 * s.len)
  · exact ⟨.failsUnread .rangeDst 0, fun _ => (if_neg hsrc).trans (if_pos hdst)⟩
  by_cases hover : overlaps s.src s.len s.dst (2 * s.len)
  · exact ⟨.failsUnread .overlap 0, fun _ => (if_neg hsrc).trans ((if_neg hdst).trans (if_pos hover))⟩
  · exact ⟨.succeeds (hexText s.sourceBytes) (2 * s.len) 0 0,
      fun _ => (if_neg hsrc).trans ((if_neg hdst).trans (if_neg hover))⟩

/-- HEX_DECODE's checks and text come from the latch, the memory and `MEM_SIZE`. -/
theorem execHexDecode_ending (s : State) : ∃ e, EndsAsWithAnyRegs .hexDecode s e := by
  by_cases hodd : s.len % 2 = 1
  · exact ⟨.failsUnread .decodeOddLength s.latch.srcLen, fun _ => if_pos hodd⟩
  by_cases hsrc : ¬ inRange s.size s.src s.len
  · exact ⟨.failsUnread .rangeSrc 0, fun _ => (if_neg hodd).trans (if_pos hsrc)⟩
  by_cases hdst : ¬ inRange s.size s.dst (s.len / 2)
  · exact ⟨.failsUnread .rangeDst 0, fun _ => (if_neg hodd).trans ((if_neg hsrc).trans (if_pos hdst))⟩
  by_cases hover : overlaps s.src s.len s.dst (s.len / 2)
  · exact ⟨.failsUnread .overlap 0,
      fun _ => (if_neg hodd).trans ((if_neg hsrc).trans ((if_neg hdst).trans (if_pos hover)))⟩
  cases htext : digitValues 0 s.sourceBytes with
  | error i =>
    refine ⟨.failsRead .decodeBadChar (BitVec.ofNat 32 i), fun r => ?_⟩
    have htext' : digitValues 0 (s.setRegs r).sourceBytes = .error i := htext
    refine (if_neg hodd).trans ((if_neg hsrc).trans ((if_neg hdst).trans ((if_neg hover).trans ?_)))
    rw [htext']
    rfl
  | ok vs =>
    refine ⟨.succeeds (pairDigits vs) (s.len / 2) 0 0, fun r => ?_⟩
    have htext' : digitValues 0 (s.setRegs r).sourceBytes = .ok vs := htext
    refine (if_neg hodd).trans ((if_neg hsrc).trans ((if_neg hdst).trans ((if_neg hover).trans ?_)))
    rw [htext']
    rfl

/-- No command's ending comes from the live registers. -/
theorem exec_ending (i : Instr) (s : State) : ∃ e, EndsAsWithAnyRegs i s e := by
  cases i with
  | segment => exact execSegment_ending s
  | hexEncode => exact execHexEncode_ending s
  | hexDecode => exact execHexDecode_ending s
  | illegal w => exact ⟨.failsUnread .illegalCmd w, fun _ => rfl⟩

/-- Two states agree on all an engine step may change and all it reports. -/
def AgreeOnOutcome (t u : State) : Prop :=
  u.mem = t.mem ∧ u.draws = t.draws ∧ u.latch = t.latch ∧ u.faults = t.faults ∧
  t.sameResults u ∧ u.regs.error = t.regs.error

theorem State.completeErr_setRegs (s : State) (r : Regs) (code : ErrCode) (info : Word) :
    AgreeOnOutcome (s.completeErr code info) ((s.setRegs r).completeErr code info) := by
  by_cases hg : s.good
  · rw [State.completeErr_good hg code info, State.completeErr_good (s := s.setRegs r) hg code info]
    exact ⟨rfl, rfl, rfl, rfl, ⟨rfl, rfl, rfl, rfl, rfl⟩, rfl⟩
  · rw [State.completeErr_faulted hg, State.completeErr_faulted (s := s.setRegs r) hg]
    exact ⟨rfl, rfl, rfl, rfl, ⟨rfl, rfl, rfl, rfl, rfl⟩, rfl⟩

theorem State.completeOk_setRegs (s : State) (r : Regs) (out bc pad : Nat) :
    AgreeOnOutcome (s.completeOk out bc pad) ((s.setRegs r).completeOk out bc pad) := by
  by_cases hg : s.good
  · rw [State.completeOk_good hg, State.completeOk_good (s := s.setRegs r) hg]
    exact ⟨rfl, rfl, rfl, rfl, ⟨rfl, rfl, rfl, rfl, rfl⟩, rfl⟩
  · rw [State.completeOk_faulted hg, State.completeOk_faulted (s := s.setRegs r) hg]
    exact ⟨rfl, rfl, rfl, rfl, ⟨rfl, rfl, rfl, rfl, rfl⟩, rfl⟩

/-- One ending reports and writes the same whatever the live registers are. -/
theorem Ending.state_setRegs (e : Ending) (s : State) (r : Regs) :
    AgreeOnOutcome (e.state s) (e.state (s.setRegs r)) := by
  cases e with
  | failsUnread code info => exact s.completeErr_setRegs r code info
  | failsRead code info => exact s.afterSource.completeErr_setRegs r code info
  | succeeds bytes out bc pad => exact (s.afterSource.writeDest bytes).completeOk_setRegs r out bc pad

/-- Settles O33: both runs end in the same way, and that way reports and writes the same. -/
theorem engineReadsNoLiveRegister : Obligations.EngineReadsNoLiveRegister := by
  unfold Obligations.EngineReadsNoLiveRegister
  intro i s r
  obtain ⟨e, he⟩ := exec_ending i s
  exact ⟨e.state s, e.state (s.setRegs r), he s.regs, he r, e.state_setRegs s r⟩

end Sys2Proof.Machine
end

section
/-! What the range checks mean byte by byte, and that a command reads its source range only (20_memory.md R62 to R64). -/

namespace Sys2Proof.Machine

/-! ### The range checks -/

/-- A legal range is one whose bytes all exist (R62): for a range that is not empty, its last byte decides. -/
theorem inRange_iff_forall_lt (m a n : Nat) : inRange m a n ↔ ∀ x, a ≤ x → x < a + n → x < m := by
  constructor
  · rintro (hempty | hfits) x hge hlt <;> omega
  · intro hall
    by_cases hn : n = 0
    · exact .inl hn
    · have hlast : a + n - 1 < m := hall (a + n - 1) (by omega) (by omega)
      exact .inr (by omega)

/-- Overlapping ranges are those that share a byte (R64): the later of the two first bytes is one they share. -/
theorem overlaps_iff_exists_shared (s ns d nd : Nat) :
    overlaps s ns d nd ↔ ∃ x, (s ≤ x ∧ x < s + ns) ∧ (d ≤ x ∧ x < d + nd) := by
  constructor
  · rintro ⟨hns, hnd, hsd, hds⟩
    exact ⟨max s d, by omega, by omega⟩
  · rintro ⟨x, ⟨hsx, hxs⟩, hdx, hxd⟩
    refine ⟨?_, ?_, ?_, ?_⟩ <;> omega

/-- Settles O30, from what each of the two checks means. -/
theorem rangeChecksMeanBytes : Obligations.RangeChecksMeanBytes := by
  unfold Obligations.RangeChecksMeanBytes
  exact ⟨inRange_iff_forall_lt, overlaps_iff_exists_shared⟩

/-! ### Reading the source -/

/-- `MemRead` looks at no byte outside its range, neither for a value nor for a draw. -/
theorem Memory.readList_congr {m m' : Memory} {a n : Nat} (h : ∀ x, a ≤ x → x < a + n → m'.read x = m.read x)
    (k : Nat) : m'.readList a n k = m.readList a n k := by
  induction n generalizing a k with
  | zero => rfl
  | succ n ih =>
    have hhead : m'.read a = m.read a := h a (by omega) (by omega)
    have htail (k : Nat) : m'.readList (a + 1) n k = m.readList (a + 1) n k :=
      ih (fun x hge hlt => h x (by omega) (by omega)) k
    simp only [Memory.readList, hhead, htail]

/-- The memory m reads on the source range of s as the memory of s does. -/
def State.SameSource (s : State) (m : Memory) : Prop :=
  ∀ x, s.src ≤ x → x < s.src + s.len → m.read x = s.byteAt x

theorem State.SameSource.sourceBytes {s : State} {m : Memory} (h : s.SameSource m) :
    (s.setMem m).sourceBytes = s.sourceBytes := congrArg Prod.fst (Memory.readList_congr h s.draws)

theorem State.SameSource.draws {s : State} {m : Memory} (h : s.SameSource m) :
    (s.setMem m).afterSource.draws = s.afterSource.draws := congrArg Prod.snd (Memory.readList_congr h s.draws)

/-! ### How a command ends over two memories -/

/-- A failure reports an error, and a success writes n bytes. -/
def Ending.ErrorOrWrites (n : Nat) : Ending → Prop
  | .failsUnread code _ | .failsRead code _ => code ≠ .noError
  | .succeeds bytes _ _ _ => bytes.length = n

/-- The outcomes o from s and o' from u are one ending, which writes n bytes if it is a success. -/
def EndAlike (n : Nat) (s u : State) (o o' : Host.Outcome State Fault Refusal) : Prop :=
  ∃ e : Ending, e.ErrorOrWrites n ∧ o = .next (e.state s) ∧ o' = .next (e.state u)

/-- Two runs that make the same check end alike if they do so once it has passed. -/
theorem EndAlike.check {n : Nat} {s u : State} {o o' : Host.Outcome State Fault Refusal} {c : Prop} [Decidable c]
    {code : ErrCode} {info : Word} (hcode : code ≠ .noError) (hpassed : ¬ c → EndAlike n s u o o') :
    EndAlike n s u (if c then .next (s.completeErr code info) else o)
      (if c then .next (u.completeErr code info) else o') := by
  by_cases hc : c
  · rw [if_pos hc, if_pos hc]
    exact ⟨.failsUnread code info, hcode, rfl, rfl⟩
  · rw [if_neg hc, if_neg hc]
    exact hpassed hc

/-- The data and its padding fill SEGMENT's destination range (R144). -/
theorem segmentOutput_length {s : State} (hw : s.width ≠ 0) :
    (s.sourceBytes ++ List.replicate (padOf s.len s.width) 0#8).length = outLenOf .segment s.latch := by
  have ⟨hle, _⟩ := ceilDiv_bounds (n := s.len) (Nat.pos_of_ne_zero hw)
  rw [List.length_append, State.sourceBytes_length, List.length_replicate, outLenOf, if_neg hw, padOf]
  exact Nat.add_sub_of_le hle

/-- The bytes of an even text fill HEX_DECODE's destination range (R171). -/
theorem hexDecodeOutput_length {s : State} (heven : ¬ s.len % 2 = 1) {vs : List Nibble}
    (hvs : digitValues 0 s.sourceBytes = .ok vs) : (pairDigits vs).length = outLenOf .hexDecode s.latch := by
  rw [pairDigits_length, digitValues_length hvs, State.sourceBytes_length, outLenOf, if_neg heven]

section

variable {s : State} {m : Memory}

theorem execSegment_endAlike (h : s.SameSource m) :
    EndAlike (outLenOf .segment s.latch) s (s.setMem m) (execSegment s) (execSegment (s.setMem m)) := by
  rw [execSegment, execSegment, h.sourceBytes]
  refine .check (by decide) fun hw => .check (by decide) fun _ => .check (by decide) fun _ =>
    .check (by decide) fun _ => ?_
  exact ⟨.succeeds _ _ _ _, segmentOutput_length hw, rfl, rfl⟩

theorem execHexEncode_endAlike (h : s.SameSource m) :
    EndAlike (outLenOf .hexEncode s.latch) s (s.setMem m) (execHexEncode s) (execHexEncode (s.setMem m)) := by
  rw [execHexEncode, execHexEncode, h.sourceBytes]
  refine .check (by decide) fun _ => .check (by decide) fun _ => .check (by decide) fun _ => ?_
  have hlen : (hexText s.sourceBytes).length = 2 * s.len := by
    rw [hexText_length, State.sourceBytes_length]
  exact ⟨.succeeds _ _ _ _, hlen, rfl, rfl⟩

theorem execHexDecode_endAlike (h : s.SameSource m) :
    EndAlike (outLenOf .hexDecode s.latch) s (s.setMem m) (execHexDecode s) (execHexDecode (s.setMem m)) := by
  rw [execHexDecode, execHexDecode, h.sourceBytes]
  refine .check (by decide) fun heven => .check (by decide) fun _ => .check (by decide) fun _ =>
    .check (by decide) fun _ => ?_
  cases htext : digitValues 0 s.sourceBytes with
  | error i => exact ⟨.failsRead .decodeBadChar (BitVec.ofNat 32 i), nofun, rfl, rfl⟩
  | ok vs => exact ⟨.succeeds (pairDigits vs) _ _ _, hexDecodeOutput_length heven htext, rfl, rfl⟩

/-- Every command ends alike over two memories with the same source range. -/
theorem exec_endAlike (i : Instr) (h : s.SameSource m) :
    EndAlike (outLenOf i s.latch) s (s.setMem m) (exec i s) (exec i (s.setMem m)) := by
  cases i with
  | segment => exact execSegment_endAlike h
  | hexEncode => exact execHexEncode_endAlike h
  | hexDecode => exact execHexDecode_endAlike h
  | illegal w => exact ⟨.failsUnread .illegalCmd w, nofun, rfl, rfl⟩

/-! ### What an ending reports and writes over two memories -/

/-- Two final states have the same results, ERROR and draws. -/
def AgreeOnReport (t u : State) : Prop := t.sameResults u ∧ u.regs.error = t.regs.error ∧ u.draws = t.draws

theorem State.completeErr_agree {t u : State} (ht : t.good) (hu : u.good) (hdraws : u.draws = t.draws)
    (code : ErrCode) (info : Word) : AgreeOnReport (t.completeErr code info) (u.completeErr code info) := by
  rw [State.completeErr_good ht code info, State.completeErr_good hu code info]
  exact ⟨⟨rfl, rfl, rfl, rfl, rfl⟩, rfl, hdraws⟩

theorem State.completeOk_agree {t u : State} (ht : t.good) (hu : u.good) (hdraws : u.draws = t.draws)
    (out bc pad : Nat) : AgreeOnReport (t.completeOk out bc pad) (u.completeOk out bc pad) := by
  rw [State.completeOk_good ht, State.completeOk_good hu]
  exact ⟨⟨rfl, rfl, rfl, rfl, rfl⟩, rfl, hdraws⟩

/-- An ending reports the same over two memories with the same source range. -/
theorem Ending.state_setMem_agree (hgood : s.good) (h : s.SameSource m) (e : Ending) :
    AgreeOnReport (e.state s) (e.state (s.setMem m)) := by
  cases e with
  | failsUnread code info => exact State.completeErr_agree (t := s) (u := s.setMem m) hgood hgood rfl code info
  | failsRead code info =>
    exact State.completeErr_agree (t := s.afterSource) (u := (s.setMem m).afterSource) hgood hgood h.draws code info
  | succeeds bytes out bc pad =>
    exact State.completeOk_agree (t := s.afterSource.writeDest bytes) (u := (s.setMem m).afterSource.writeDest bytes)
      hgood hgood h.draws out bc pad

theorem State.completeErr_errCode (hgood : s.good) (code : ErrCode) (info : Word) :
    (s.completeErr code info).regs.errCode = code := by
  rw [State.completeErr_good hgood code info]

/-- In a good run a success leaves in its destination range the bytes it writes. -/
theorem Ending.byteAt_state_succeeds (hgood : s.good) (bytes : List Byte) (out bc pad : Nat) {j : Nat}
    (hj : j < bytes.length) : ((Ending.succeeds bytes out bc pad).state s).byteAt (s.dst + j) = some bytes[j] := by
  rw [Ending.state, State.completeOk_good (s := s.afterSource.writeDest bytes) hgood]
  exact Memory.read_writeList_inside s.mem s.dst bytes hj

/-- An ending that reports no error leaves the same n bytes whatever the memory was. -/
theorem Ending.ErrorOrWrites.byteAt_setMem (hgood : s.good) {n : Nat} {e : Ending} (he : e.ErrorOrWrites n)
    (hok : (e.state s).regs.errCode = .noError) {x : Nat} (hge : s.dst ≤ x) (hlt : x < s.dst + n) :
    (e.state (s.setMem m)).byteAt x = (e.state s).byteAt x := by
  cases e with
  | failsUnread code info => exact absurd ((State.completeErr_errCode hgood code info).symm.trans hok) he
  | failsRead code info =>
    exact absurd ((State.completeErr_errCode (s := s.afterSource) hgood code info).symm.trans hok) he
  | succeeds bytes out bc pad =>
    obtain ⟨j, rfl⟩ := Nat.exists_eq_add_of_le hge
    have hlen : bytes.length = n := he
    have hj : j < bytes.length := by omega
    exact (Ending.byteAt_state_succeeds (s := s.setMem m) hgood bytes out bc pad hj).trans
      (Ending.byteAt_state_succeeds hgood bytes out bc pad hj).symm

end

/-- Settles O34: the two runs have one ending, which reports the same and, as a success, writes the same. -/
theorem commandReadsSourceOnly : Obligations.CommandReadsSourceOnly := by
  unfold Obligations.CommandReadsSourceOnly
  intro i s m hgood hsource
  obtain ⟨e, he, hs, hm⟩ := exec_endAlike i hsource
  obtain ⟨hresults, herror, hdraws⟩ := e.state_setMem_agree hgood hsource
  exact ⟨e.state s, e.state (s.setMem m), hs, hm, hresults, herror, hdraws,
    fun hok _ hge hlt => he.byteAt_setMem hgood hok hge hlt⟩

end Sys2Proof.Machine
end

section
/-! Decoding and encoding are inverse, and which words are illegal (30_encoding.md R90 to R94). -/

namespace Sys2Proof

/-! ### The decoder, case by case -/

@[simp] theorem decode_segmentWord : decode 0x00000001#32 = .segment := rfl
@[simp] theorem decode_hexEncodeWord : decode 0x00000002#32 = .hexEncode := rfl
@[simp] theorem decode_hexDecodeWord : decode 0x00000003#32 = .hexDecode := rfl

theorem decode_other {c : Word} (h1 : c ≠ 0x00000001#32) (h2 : c ≠ 0x00000002#32) (h3 : c ≠ 0x00000003#32) :
    decode c = .illegal c := by
  rw [decode, if_neg h1, if_neg h2, if_neg h3]

/-- An illegal command is well formed when its word is none of the table's. -/
theorem illegal_wf_iff {c : Word} :
    (Instr.illegal c).wf = true ↔ c ≠ 0x00000001#32 ∧ c ≠ 0x00000002#32 ∧ c ≠ 0x00000003#32 := by
  simp only [Instr.wf, Bool.and_eq_true, bne_iff_ne, and_assoc]

/-- A word is one of the table's three, or illegal. -/
theorem word_cases (c : Word) :
    c = 0x00000001#32 ∨ c = 0x00000002#32 ∨ c = 0x00000003#32 ∨ (Instr.illegal c).wf = true := by
  rw [illegal_wf_iff]
  tauto

/-! ### The round trip -/

theorem decode_encode {i : Instr} (h : i.wf = true) : decode (encode i) = i := by
  cases i with
  | segment => exact decode_segmentWord
  | hexEncode => exact decode_hexEncodeWord
  | hexDecode => exact decode_hexDecodeWord
  | illegal w =>
    obtain ⟨h1, h2, h3⟩ := illegal_wf_iff.1 h
    exact decode_other h1 h2 h3

/-- Every word is the word of a well-formed instruction. -/
theorem exists_wf_encode_eq (c : Word) : ∃ i : Instr, i.wf = true ∧ encode i = c := by
  rcases word_cases c with rfl | rfl | rfl | hwf
  · exact ⟨.segment, rfl, rfl⟩
  · exact ⟨.hexEncode, rfl, rfl⟩
  · exact ⟨.hexDecode, rfl, rfl⟩
  · exact ⟨.illegal c, hwf, rfl⟩

theorem decode_wf (c : Word) : (decode c).wf = true := by
  obtain ⟨i, hwf, rfl⟩ := exists_wf_encode_eq c
  rw [decode_encode hwf]
  exact hwf

@[simp] theorem encode_decode (c : Word) : encode (decode c) = c := by
  obtain ⟨i, hwf, rfl⟩ := exists_wf_encode_eq c
  rw [decode_encode hwf]

/-- Settles O2: decoding undoes encoding, and every word is the encoding of a well-formed instruction. -/
theorem decodeEncodeAgree : Obligations.DecodeEncodeAgree := by
  unfold Obligations.DecodeEncodeAgree
  exact ⟨fun _ => decode_encode, fun c => ⟨decode_wf c, encode_decode c⟩⟩

/-- Settles O1, from the decoder's four cases. -/
theorem commandWordsDecode : Obligations.CommandWordsDecode := by
  unfold Obligations.CommandWordsDecode
  exact ⟨decode_segmentWord, decode_hexEncodeWord, decode_hexDecodeWord, fun _ => decode_other⟩

/-! ### The fields of an illegal word -/

/-- The fields tell the three commands from ILLEGAL, whichever the instruction. -/
theorem opField_statement (i : Instr) : Laws.OpField.Statement i := by
  cases i with
  | segment => exact Laws.OpField.segment
  | hexEncode => exact Laws.OpField.hexEncode
  | hexDecode => exact Laws.OpField.hexDecode
  | illegal w => exact Laws.OpField.illegal w

/-- ILLEGAL carries the word it was decoded from. -/
theorem eq_of_decode_eq_illegal {c w : Word} (h : decode c = .illegal w) : w = c := by
  rw [← encode_decode c, h, encode]

theorem decode_eq_illegal_iff_exists (c : Word) : decode c = .illegal c ↔ ∃ w, decode c = .illegal w := by
  refine ⟨fun h => ⟨c, h⟩, fun ⟨w, hw⟩ => ?_⟩
  obtain rfl := eq_of_decode_eq_illegal hw
  exact hw

/-- A word decodes to one of the three commands exactly when `Z` is 0 and `OP` is 1, 2 or 3. -/
theorem decode_ne_illegal_iff_fields (c : Word) :
    (∀ w, decode c ≠ .illegal w) ↔ zField c = 0 ∧ (opField c = 1 ∨ opField c = 2 ∨ opField c = 3) := by
  have hfields := opField_statement (decode c) (decode_wf c)
  rwa [encode_decode] at hfields

/-- Settles O3: an illegal word is one that decodes to none of the three commands, which its fields decide. -/
theorem illegalByFields : Obligations.IllegalByFields := by
  unfold Obligations.IllegalByFields
  intro c
  have hfields := not_congr (decode_ne_illegal_iff_fields c)
  simp only [not_forall, not_not, not_and_or, not_or] at hfields
  exact (decode_eq_illegal_iff_exists c).trans hfields

end Sys2Proof
end

section
/-! Every step answers a next state, and the course of an illegal word from its CMD write to its completion (30_encoding.md R93, 40_host_interface.md R120, R125). -/

namespace Sys2Proof.Machine

/-- Settles O6: a host transaction is total, every command completes, and an idle engine does nothing. -/
theorem everyStepCompletes : Obligations.EveryStepCompletes := by
  unfold Obligations.EveryStepCompletes
  intro s
  cases hturn : s.turn with
  | host x => exact ⟨_, step_host hturn⟩
  | engine =>
    cases hbusy : s.regs.busy with
    | true =>
      obtain ⟨t, ht, -⟩ := exec_cases s.latched s.popTurn
      exact ⟨t, (step_engine_busy hturn hbusy).trans ht⟩
    | false => exact ⟨_, step_engine_idle hturn hbusy⟩

theorem exec_illegal (w : Word) (s : State) :
    exec (.illegal w) s = .next (s.completeErr .illegalCmd w) := rfl

/-- In a good run ILLEGAL fails with its word. -/
theorem exec_illegal_fails {s : State} (hgood : s.good) (w : Word) :
    ∃ t, exec (.illegal w) s = .next t ∧ s.failsAs t .illegalCmd w :=
  ⟨_, exec_illegal w s, State.completeErr_good hgood .illegalCmd w⟩

/-- A CMD write to an idle block issues the word, whatever it is (R120). -/
theorem hostStep_cmdWrite_idle {s : State} (hidle : s.regs.busy = false) (c : Word) :
    hostStep (.regWrite 0x08 c) s = s.issue c :=
  if_neg (Bool.eq_false_iff.1 hidle)

/-- The engine's turn after an issue runs the word issued. -/
theorem engineTurn_issue (s : State) (c : Word) : engineTurn (s.issue c) = exec (decode c) (s.issue c) :=
  if_pos rfl

/-- Settles O57: the CMD write issues the word, and the engine's turn runs it as ILLEGAL. -/
theorem illegalWordsComplete : Obligations.IllegalWordsComplete := by
  unfold Obligations.IllegalWordsComplete
  refine ⟨fun _ c hgood => exec_illegal_fails hgood c, fun s c hidle hgood h1 h2 h3 => ?_⟩
  rw [hostStep_cmdWrite_idle hidle, engineTurn_issue, decode_other h1 h2 h3]
  exact ⟨rfl, rfl, exec_illegal_fails (s := s.issue c) hgood c⟩

end Sys2Proof.Machine
end

section
/-! The host's turns and the run of a finite agenda: every step takes one turn off it, and the engine's turn that follows the last one ends idle (40_host_interface.md R110, R125, 70_reset_and_hazards.md R243). -/

namespace Sys2Proof.Machine

theorem State.turn_of_agenda_cons {s : State} {e : Event} {r : List Event} (h : s.agenda = e :: r) :
    s.turn = e := by
  rw [State.turn, h]

theorem State.popTurn_of_agenda_cons {s : State} {e : Event} {r : List Event} (h : s.agenda = e :: r) :
    s.popTurn = s.setAgenda r := by
  rw [State.popTurn, h, List.tail_cons]

theorem State.turn_of_agenda_nil {s : State} (h : s.agenda = []) : s.turn = .engine := by
  rw [State.turn, h]

/-- Settles O5: the head of the agenda has the turn, and the step takes it off. -/
theorem stepRunsHostTransaction : Obligations.StepRunsHostTransaction := by
  unfold Obligations.StepRunsHostTransaction
  intro s x r hagenda
  rw [step_host (State.turn_of_agenda_cons hagenda), State.popTurn_of_agenda_cons hagenda]
  rfl

/-- No engine step changes the agenda. -/
theorem exec_agenda {i : Instr} {s t : State} (h : exec i s = .next t) : t.agenda = s.agenda := by
  obtain ⟨-, -, -, -, -, -, -, -, -, -, hagenda, -⟩ := exec_sameHostSide h
  exact hagenda

/-- Every step takes one turn off the agenda, and puts none on it. -/
theorem step_agenda {s t : State} (h : step s = .next t) : t.agenda = s.agenda.tail := by
  rcases step_cases h with ⟨x, -, rfl⟩ | ⟨-, -, hexec⟩ | ⟨-, -, rfl⟩
  · obtain ⟨-, hagenda, -⟩ := hostStep_keeps x s.popTurn
    exact hagenda
  · exact exec_agenda hexec
  · rfl

/-- After the engine's turn the block is idle: a command in flight completed, or there was none. -/
theorem step_engine_endsIdle {s t : State} (hturn : s.turn = .engine) (h : step s = .next t) :
    t.regs.busy = false := by
  rcases step_cases h with ⟨x, hhost, -⟩ | ⟨-, -, hexec⟩ | ⟨-, hidle, rfl⟩
  · rw [hturn] at hhost
    cases hhost
  · exact (exec_status hexec).1
  · exact hidle

/-- Settles O7, by induction on the agenda: each turn on it is one step, and the step after the last is the
engine's. -/
theorem everyRunEndsIdle : Obligations.EveryRunEndsIdle := by
  unfold Obligations.EveryRunEndsIdle
  intro s
  induction hagenda : s.agenda generalizing s with
  | nil =>
    obtain ⟨t, hstep⟩ := everyStepCompletes s
    exact ⟨t, run_succ hstep rfl, step_engine_endsIdle (State.turn_of_agenda_nil hagenda) hstep,
      (step_agenda hstep).trans (congrArg List.tail hagenda)⟩
  | cons e r ih =>
    obtain ⟨u, hstep⟩ := everyStepCompletes s
    obtain ⟨t, hrun, hends⟩ := ih u ((step_agenda hstep).trans (congrArg List.tail hagenda))
    exact ⟨t, run_succ hstep hrun, hends⟩

end Sys2Proof.Machine
end

section
/-! The register port: the words that CTRL and STATUS read as, the offsets that hold no register, and what a write to each writable register does (40_host_interface.md R111 to R121). -/

namespace Sys2Proof.Machine

/-! ### Reads -/

theorem Regs.ctrlWord_eq (r : Regs) : r.ctrlWord = if r.irqEn then 1 else 0 := by
  rw [Regs.ctrlWord]
  cases r.irqEn <;> rfl

theorem wordOfBits_four : ∀ b0 b1 b2 b3 : Bool,
    (wordOfBits [b0, b1, b2, b3]).toNat = b0.toNat + 2 * b1.toNat + 4 * b2.toNat + 8 * b3.toNat := by
  decide

/-- Every register stands at an aligned offset below 0x30. -/
theorem RegName.offset_aligned_lt (r : RegName) : r.offset.extractLsb' 0 2 = 0 ∧ r.offset < 0x30 := by
  cases r <;> decide

/-- No register stands at an unaligned offset, or at 0x30 and above (R113). -/
theorem RegName.ofOffset_eq_none {off : Offset} (h : ¬ (off.extractLsb' 0 2 = 0 ∧ off < 0x30)) :
    RegName.ofOffset off = none := by
  refine Option.eq_none_iff_forall_ne_some.2 fun r hr => h ?_
  rw [RegName.ofOffset_eq_some_iff.1 hr]
  exact r.offset_aligned_lt

/-- A read where no register stands gives 0. -/
theorem State.regRead_none {off : Offset} (h : RegName.ofOffset off = none) (s : State) :
    s.regRead off = s.setRegRdata 0 := by
  rw [State.regRead_eq, h]
  rfl

/-- Settles O15: at a register's offset a read gives the register, elsewhere 0, and it drives the read port only. -/
theorem regReadReturnsValue : Obligations.RegReadReturnsValue := by
  unfold Obligations.RegReadReturnsValue
  intro s
  have hread := s.regRead_offset_regRdata
  exact ⟨(hread .ctrl).trans s.regs.ctrlWord_eq,
    (congrArg BitVec.toNat (hread .status)).trans (wordOfBits_four _ _ _ _),
    hread .cmd, hread .srcAddr, hread .srcLen, hread .dstAddr, hread .blockWidth, hread .outLen,
    hread .blockCount, hread .padCount, hread .errCode, hread .errInfo,
    fun off hoff => congrArg State.regRdata (s.regRead_none (RegName.ofOffset_eq_none hoff)),
    fun off => by rw [hostStep, State.regRead_eq]; rfl⟩

/-! ### Writes -/

/-- A write where no register stands is ignored. -/
theorem State.regWrite_none {off : Offset} (h : RegName.ofOffset off = none) (s : State) (v : Word) :
    s.regWrite off v = s := by
  rw [State.regWrite, h]

/-- Settles O16: at such an offset no register stands. -/
theorem razWiOffsets : Obligations.RazWiOffsets := by
  unfold Obligations.RazWiOffsets
  intro s off v hoff
  have hnone : RegName.ofOffset off = none :=
    RegName.ofOffset_eq_none fun ⟨haligned, hlt⟩ =>
      hoff.elim (fun h => h haligned) fun h => BitVec.not_lt.2 h hlt
  exact ⟨s.regRead_none hnone, s.regWrite_none hnone v⟩

/-- A write at a register's offset reaches that register. -/
theorem hostStep_regWrite_offset (s : State) (r : RegName) (v : Word) :
    hostStep (.regWrite r.offset v) s = s.writeReg r v := by
  rw [hostStep, State.regWrite, RegName.ofOffset_offset]

/-- Settles O19, from the write that reaches STATUS. -/
theorem statusWriteClears : Obligations.StatusWriteClears := by
  unfold Obligations.StatusWriteClears
  exact fun s v => hostStep_regWrite_offset s .status v

/-- Settles O20: bit 1 of the value decides between the soft reset and the write of `IRQ_EN`. -/
theorem ctrlWrite : Obligations.CtrlWrite := by
  unfold Obligations.CtrlWrite
  intro s v
  have hwrite : hostStep (.regWrite 0x00 v) s = s.writeCtrl v := hostStep_regWrite_offset s .ctrl v
  rw [hwrite, State.writeCtrl]
  exact ⟨fun hreset => if_pos hreset, fun hno => if_neg (Bool.eq_false_iff.1 hno)⟩

/-- Settles O21: a CMD write to an idle block is the issue. -/
theorem issueLatches : Obligations.IssueLatches := by
  unfold Obligations.IssueLatches
  exact fun s c hidle => (hostStep_cmdWrite_idle hidle c).trans (s.issue_eq c)

/-- Settles O22: a CMD write to a busy block does not issue. -/
theorem overrunDiscards : Obligations.OverrunDiscards := by
  unfold Obligations.OverrunDiscards
  exact fun s c hbusy => (hostStep_regWrite_offset s .cmd c).trans (if_pos hbusy)

/-! ### The operand registers -/

/-- SEGMENT checks the width before all else (R141). -/
theorem exec_segment_widthZero {s : State} (hw : s.width = 0) :
    exec .segment s = .next (s.completeErr .badWidth 0) := if_pos hw

/-- A SEGMENT issued while `BLOCK_WIDTH` is 0 fails with BAD_WIDTH, and the register keeps the 0. -/
theorem issue_segment_widthZero {s : State} (hgood : s.good) (hidle : s.regs.busy = false)
    (hw : s.regs.blockWidth = 0) : ∃ t, engineTurn (hostStep (.regWrite 0x08 1) s) = .next t ∧
      t.regs.blockWidth = 0 ∧ t.regs.errCode = .badWidth := by
  have hlatched : (s.issue 1).width = 0 := congrArg BitVec.toNat hw
  refine ⟨(s.issue 1).completeErr .badWidth 0, ?_, ?_, ?_⟩
  · rw [hostStep_cmdWrite_idle hidle, engineTurn_issue]
    exact exec_segment_widthZero hlatched
  · rw [State.completeErr_good (s := s.issue 1) hgood]
    exact hw
  · exact State.completeErr_errCode (s := s.issue 1) hgood .badWidth 0

/-- Settles O18: a write changes its operand register only, an issue latches what stands there, and a width of 0
is what the next SEGMENT meets. -/
theorem operandWritesStored : Obligations.OperandWritesStored := by
  unfold Obligations.OperandWritesStored
  intro s v c
  have hwrite := hostStep_regWrite_offset s
  have hissued (r : RegName) := congrArg (fun t => (State.issue t c).latch) (hwrite r v)
  exact ⟨⟨hwrite .srcAddr v, congrArg Latch.srcAddr (hissued .srcAddr)⟩,
    ⟨hwrite .srcLen v, congrArg Latch.srcLen (hissued .srcLen)⟩,
    ⟨hwrite .dstAddr v, congrArg Latch.dstAddr (hissued .dstAddr)⟩,
    ⟨hwrite .blockWidth v, congrArg Latch.width (hissued .blockWidth)⟩,
    fun hgood hidle => issue_segment_widthZero (s := hostStep (.regWrite 0x18 0) s) hgood hidle rfl⟩

end Sys2Proof.Machine
end

section
/-! The memory write of the host, case by case, and the completion of a command once a hazard is recorded (40_host_interface.md R116, 60_exceptions.md R210, 70_reset_and_hazards.md R240, R245). -/

namespace Sys2Proof.Machine

/-! ### The memory write -/

/-- The address lies in a range of a command in flight, where a host write is a hazard (R240). -/
abbrev State.inBusyRange (s : State) (a : Nat) : Prop :=
  s.regs.busy = true ∧ (s.inSrcRange a ∨ s.inDstRange a)

/-- At or above `MEM_SIZE` a write is ignored. -/
theorem State.memWrite_outside {s : State} {a : Word} (ha : s.size ≤ a.toNat) (b : Byte) :
    s.memWrite a b = s := if_pos ha

/-- In a busy command's ranges a write raises the fault and is performed. -/
theorem State.memWrite_hazard {s : State} {a : Word} (ha : ¬ s.size ≤ a.toNat) (hh : s.inBusyRange a.toNat)
    (b : Byte) : s.memWrite a b = (s.raise .hazardWrite).setMem (s.mem.write a.toNat b) := by
  rw [State.memWrite, if_neg ha, if_pos hh]

/-- Elsewhere a write is performed, and that is all. -/
theorem State.memWrite_noHazard {s : State} {a : Word} (ha : ¬ s.size ≤ a.toNat) (hh : ¬ s.inBusyRange a.toNat)
    (b : Byte) : s.memWrite a b = s.setMem (s.mem.write a.toNat b) := by
  rw [State.memWrite, if_neg ha, if_neg hh]

/-- Below `MEM_SIZE` a write is performed, hazard or not, and changes at most the fault set besides. -/
theorem State.memWrite_inside {s : State} {a : Word} (ha : ¬ s.size ≤ a.toNat) (b : Byte) :
    ∃ f, s.memWrite a b = (s.setFaults f).setMem (s.mem.write a.toNat b) := by
  by_cases hh : s.inBusyRange a.toNat
  · exact ⟨_, State.memWrite_hazard ha hh b⟩
  · exact ⟨s.faults, State.memWrite_noHazard ha hh b⟩

/-- The fault is recorded exactly in a busy command's ranges. -/
theorem State.mem_faults_memWrite {s : State} {a : Word} (ha : ¬ s.size ≤ a.toNat) (b : Byte) (k : FaultKind) :
    k ∈ (s.memWrite a b).faults ↔ k ∈ s.faults ∨ (k = .hazardWrite ∧ s.inBusyRange a.toNat) := by
  by_cases hh : s.inBusyRange a.toNat
  · rw [State.memWrite_hazard ha hh, State.setMem_faults, State.mem_raise, or_comm, and_iff_left hh]
  · rw [State.memWrite_noHazard ha hh, State.setMem_faults, or_iff_left fun h => hh h.2]

/-- Settles O28: a write at or above `MEM_SIZE` is ignored, and below it stores the byte and at most records the
fault. -/
theorem memWriteStores : Obligations.MemWriteStores := by
  unfold Obligations.MemWriteStores
  intro s a b
  refine ⟨fun ha => State.memWrite_outside ha b, fun hlt => ?_⟩
  have ha := Nat.not_le.2 hlt
  obtain ⟨f, hwrite⟩ := State.memWrite_inside ha b
  have hbyte (x : Nat) : (s.memWrite a b).byteAt x = (s.mem.write a.toNat b).read x := by
    rw [hwrite]
    rfl
  refine ⟨(hbyte a.toNat).trans (Memory.read_write_same s.mem a.toNat b),
    fun x hx => (hbyte x).trans (Memory.read_write_other s.mem b hx),
    State.mem_faults_memWrite ha b, ?_⟩
  rw [hostStep, hwrite]
  rfl

/-! ### Completion after a hazard -/

/-- The bytes of its destination range are unspecified after an undefined completion. -/
theorem State.completeUndefined_byteAt (s : State) {x : Nat} (hx : s.dst ≤ x ∧ x < s.dst + s.latch.outLen) :
    s.completeUndefined.byteAt x = none :=
  (Memory.read_forget s.mem s.dst s.latch.outLen x).trans (if_pos hx)

/-- Once a hazard is recorded, every engine step ends in the undefined completion, from a state that has the
same latch. -/
theorem exec_faulted {i : Instr} {s t : State} (hbad : ¬ s.good) (h : exec i s = .next t) :
    ∃ u : State, u.latch = s.latch ∧ t = u.completeUndefined := by
  rcases exec_next_cases h with ⟨code, info, -, rfl | rfl⟩ | ⟨bytes, bc, pad, rfl, -⟩
  · exact ⟨s, rfl, State.completeErr_faulted hbad code info⟩
  · exact ⟨s.afterSource, rfl, State.completeErr_faulted (s := s.afterSource) hbad code info⟩
  · exact ⟨s.afterSource.writeDest bytes, rfl,
      State.completeOk_faulted (s := s.afterSource.writeDest bytes) hbad _ bc pad⟩

/-- Settles O36: the frame is that of every engine step, and the ending is the undefined completion. -/
theorem faultedCommandCompletes : Obligations.FaultedCommandCompletes := by
  unfold Obligations.FaultedCommandCompletes
  rintro _ s rfl hbad
  obtain ⟨t, hexec, -⟩ := exec_cases s.latched s
  obtain ⟨hbusy, hdone, hhost, hbytes⟩ := completionFrame _ s t rfl hexec
  obtain ⟨u, hlatch, rfl⟩ := exec_faulted hbad hexec
  refine ⟨u.completeUndefined, hexec, hbusy, hdone, hhost, hbytes, fun x hge hlt => ?_, ?_⟩
  · refine u.completeUndefined_byteAt ?_
    rw [State.dst, hlatch]
    exact ⟨hge, hlt⟩
  · rw [State.completeUndefined_error, bne_iff_ne]

end Sys2Proof.Machine
end

section
/-! SEGMENT: its errors in their order, the length of its output, and what a success writes and reports (41_segment.md R140 to R149). -/

namespace Sys2Proof.Machine

/-! ### The errors -/

/-- Settles O42: the width is checked first, and the failed completion of a good run changes nothing else. -/
theorem segmentWidthZero : Obligations.SegmentWidthZero := by
  unfold Obligations.SegmentWidthZero
  intro s hgood hw
  exact ⟨_, exec_segment_widthZero hw, State.completeErr_good hgood .badWidth 0⟩

section

variable {s : State} (hw : s.width ≠ 0)
include hw

/-- With a width, SEGMENT checks its source range first. -/
theorem exec_segment_rangeSrc (hsrc : ¬ inRange s.size s.src s.len) :
    exec .segment s = .next (s.completeErr .rangeSrc 0) :=
  (if_neg hw).trans (if_pos hsrc)

/-- With a legal source range, SEGMENT checks the range of its whole padded output. -/
theorem exec_segment_rangeDst (hsrc : inRange s.size s.src s.len)
    (hdst : ¬ inRange s.size s.dst (paddedLen s.len s.width)) :
    exec .segment s = .next (s.completeErr .rangeDst 0) :=
  (if_neg hw).trans <| (if_neg (not_not.2 hsrc)).trans (if_pos hdst)

/-- With both ranges legal, SEGMENT checks that they do not overlap unless it works in place. -/
theorem exec_segment_overlap (hsrc : inRange s.size s.src s.len)
    (hdst : inRange s.size s.dst (paddedLen s.len s.width))
    (hover : overlaps s.src s.len s.dst (paddedLen s.len s.width)) (hne : s.src ≠ s.dst) :
    exec .segment s = .next (s.completeErr .overlap 0) :=
  (if_neg hw).trans <| (if_neg (not_not.2 hsrc)).trans <| (if_neg (not_not.2 hdst)).trans (if_pos ⟨hover, hne⟩)

end

/-- Settles O43, from SEGMENT's answer at each of its checks after the width. -/
theorem segmentErrorOrder : Obligations.SegmentErrorOrder := by
  unfold Obligations.SegmentErrorOrder
  intro s hgood hw
  have hfails (code : ErrCode) := State.completeErr_good hgood code 0
  exact ⟨fun hsrc => ⟨_, exec_segment_rangeSrc hw hsrc, hfails .rangeSrc⟩,
    fun hsrc hdst => ⟨_, exec_segment_rangeDst hw hsrc hdst, hfails .rangeDst⟩,
    fun hsrc hdst hover hne => ⟨_, exec_segment_overlap hw hsrc hdst hover hne, hfails .overlap⟩⟩

/-! ### The padded length -/

section

variable {n w : Nat} (hw : w ≠ 0)
include hw

/-- The data and its padding make up the padded length. -/
theorem add_padOf : n + padOf n w = paddedLen n w :=
  Nat.add_sub_of_le (ceilDiv_bounds (Nat.pos_of_ne_zero hw)).1

/-- There is less padding than one block. -/
theorem padOf_lt : padOf n w < w := by
  have ⟨_, hlt⟩ := ceilDiv_bounds (n := n) (Nat.pos_of_ne_zero hw)
  have hadd := add_padOf (n := n) hw
  omega

/-- The padding and the data of the last, partial block fill exactly that block, if there is one: together they are
a multiple of w below 2w. -/
theorem padOf_add_mod : padOf n w + n % w = if n % w = 0 then 0 else w := by
  have hpad := padOf_lt (n := n) hw
  have hmod := Nat.mod_lt n (Nat.pos_of_ne_zero hw)
  have hdvd : w ∣ padOf n w + n % w := by
    rw [Nat.dvd_iff_mod_eq_zero, Nat.add_mod_mod, Nat.add_comm, add_padOf hw]
    exact Nat.mul_mod_left _ _
  obtain ⟨k, hk⟩ := hdvd
  obtain rfl | rfl | hk2 : k = 0 ∨ k = 1 ∨ 2 ≤ k := by omega
  · rw [if_pos (by omega), hk, Nat.mul_zero]
  · rw [if_neg (by omega), hk, Nat.mul_one]
  · have := Nat.mul_le_mul_left w hk2
    omega

/-- The padding by R143's formula. -/
theorem padOf_eq_mod : padOf n w = (w - n % w) % w := by
  have hmod := Nat.mod_lt n (Nat.pos_of_ne_zero hw)
  have hfill := padOf_add_mod (n := n) hw
  split at hfill
  case isTrue h =>
    rw [h, Nat.sub_zero, Nat.mod_self]
    omega
  case isFalse h =>
    rw [Nat.mod_eq_of_lt (by omega)]
    omega

/-- A multiple of w is its own padded length. -/
theorem paddedLen_of_mod_eq_zero (h : n % w = 0) : paddedLen n w = n := by
  have hfill := padOf_add_mod (n := n) hw
  rw [if_pos h] at hfill
  have hadd := add_padOf (n := n) hw
  omega

/-- A multiple of w has as many blocks as w goes into it. -/
theorem ceilDiv_of_mod_eq_zero (h : n % w = 0) : ceilDiv n w = n / w :=
  (Nat.div_eq_of_eq_mul_left (Nat.pos_of_ne_zero hw) (paddedLen_of_mod_eq_zero hw h).symm).symm

/-- There are no more blocks than bytes in them. -/
theorem ceilDiv_le_paddedLen : ceilDiv n w ≤ paddedLen n w :=
  Nat.le_mul_of_pos_right _ (Nat.pos_of_ne_zero hw)

end

/-- Byte j of block k lies in the padded length. -/
theorem blockIndex_lt {n w k j : Nat} (hk : k < ceilDiv n w) (hj : j < w) : k * w + j < paddedLen n w :=
  calc k * w + j < (k + 1) * w := by rw [Nat.succ_mul]; omega
    _ ≤ ceilDiv n w * w := Nat.mul_le_mul_right w hk

/-! ### A success -/

/-- A legal range has a length of 32 bits (R149). -/
theorem State.lt_of_inRange (s : State) {a n : Nat} (h : inRange s.size a n) : n < 2 ^ 32 := by
  have hsize : s.size < 2 ^ 32 := s.memSize.isLt
  rcases h with h | h <;> omega

/-- In a good run `complete_ok` reports its three values where they fit in 32 bits (R203). -/
theorem State.completeOk_reports {s : State} (hgood : s.good) {out bc pad : Nat} (hout : out < 2 ^ 32)
    (hbc : bc < 2 ^ 32) (hpad : pad < 2 ^ 32) : (s.completeOk out bc pad).reports false out bc pad .noError 0 := by
  rw [State.completeOk_good hgood]
  exact ⟨rfl, rfl, rfl, Nat.mod_eq_of_lt hout, Nat.mod_eq_of_lt hbc, Nat.mod_eq_of_lt hpad,
    rfl, rfl⟩

/-- What the engine reads of a source byte is its value where it holds one (R63, R232). -/
theorem State.mayRead_sourceBytes (s : State) {i : Nat} (hi : i < s.sourceBytes.length) :
    s.mayRead (s.src + i) s.sourceBytes[i] := by
  intro c hc
  have hread : s.sourceBytes[i]? = some c := Memory.readList_getElem? _ _ _ _ (by simpa using hi) hc
  exact (List.getElem_eq_iff hi).2 hread

/-- The bytes a successful SEGMENT writes: its data, then the padding (R144). -/
def State.segmentOutput (s : State) : List Byte := s.sourceBytes ++ List.replicate (padOf s.len s.width) 0

/-- The state after a successful SEGMENT. -/
def State.segmented (s : State) : State :=
  (Ending.succeeds s.segmentOutput (paddedLen s.len s.width) (ceilDiv s.len s.width) (padOf s.len s.width)).state s

/-- The output fills SEGMENT's destination range. -/
theorem State.length_segmentOutput {s : State} (hw : s.width ≠ 0) :
    s.segmentOutput.length = paddedLen s.len s.width :=
  (segmentOutput_length hw).trans (if_neg hw)

section

variable {s : State} (h : s.segmentRuns)
include h

/-- SEGMENT succeeds when its checks pass. -/
theorem State.segmentRuns.exec_eq : exec .segment s = .next s.segmented := by
  obtain ⟨-, hw, hsrc, hdst, hover⟩ := h
  exact (if_neg hw).trans <| (if_neg (not_not.2 hsrc)).trans <| (if_neg (not_not.2 hdst)).trans
    (if_neg fun ⟨hshared, hne⟩ => hne (hover hshared))

/-- A successful SEGMENT reports its counts whole: none is above the padded length, which fits in 32 bits (R149). -/
theorem State.segmentRuns.reports : s.segmented.reports false (paddedLen s.len s.width) (ceilDiv s.len s.width)
    (padOf s.len s.width) .noError 0 := by
  obtain ⟨hgood, hw, -, hdst, -⟩ := h
  have hout := s.lt_of_inRange hdst
  exact State.completeOk_reports (s := s.afterSource.writeDest s.segmentOutput) hgood hout
    ((ceilDiv_le_paddedLen hw).trans_lt hout) ((Nat.sub_le _ _).trans_lt hout)

/-- Of a multiple of the width SEGMENT reports the length itself, and no padding (R145). -/
theorem State.segmentRuns.reports_of_mod_eq_zero (hmod : s.len % s.width = 0) :
    s.segmented.reports false s.len (s.len / s.width) 0 .noError 0 := by
  have ⟨_, hw, _⟩ := h
  have hreports := h.reports
  rwa [padOf, paddedLen_of_mod_eq_zero hw hmod, ceilDiv_of_mod_eq_zero hw hmod, Nat.sub_self] at hreports

/-- A successful SEGMENT stores its output from `DST_ADDR`. -/
theorem State.segmentRuns.mem_eq : s.segmented.mem = s.mem.writeList s.dst s.segmentOutput := by
  obtain ⟨hgood, -⟩ := h
  exact congrArg State.mem (State.completeOk_good (s := s.afterSource.writeDest s.segmentOutput) hgood _ _ _)

/-- A successful SEGMENT changes no byte outside its padded output (R148). -/
theorem State.segmentRuns.sameBytesOutside :
    s.sameBytesOutside s.segmented s.dst (paddedLen s.len s.width) := by
  have ⟨_, hw, _⟩ := h
  intro x hx
  rw [State.byteAt, h.mem_eq]
  refine Memory.read_writeList_outside _ _ ?_
  rwa [State.length_segmentOutput hw]

/-- Below the data's length the output is the data, as the engine read it. -/
theorem State.segmentRuns.byteAt_data {i : Nat} (hi : i < s.len) :
    ∃ b, s.mayRead (s.src + i) b ∧ s.segmented.byteAt (s.dst + i) = some b := by
  have hread : i < s.sourceBytes.length := by rwa [State.sourceBytes_length]
  have hwritten : i < s.segmentOutput.length := by
    rw [State.segmentOutput, List.length_append]
    omega
  refine ⟨s.sourceBytes[i], s.mayRead_sourceBytes hread, ?_⟩
  rw [State.byteAt, h.mem_eq, Memory.read_writeList_inside _ _ _ hwritten]
  exact congrArg some (List.getElem_append_left hread)

/-- From the data's length on the output is zeros (R144). -/
theorem State.segmentRuns.byteAt_padding {i : Nat} (hdata : s.len ≤ i) (hi : i < paddedLen s.len s.width) :
    s.segmented.byteAt (s.dst + i) = some 0 := by
  have ⟨_, hw, _⟩ := h
  have hread : s.sourceBytes.length ≤ i := by rwa [State.sourceBytes_length]
  have hwritten : i < s.segmentOutput.length := by rwa [State.length_segmentOutput hw]
  rw [State.byteAt, h.mem_eq, Memory.read_writeList_inside _ _ _ hwritten]
  exact congrArg some ((List.getElem_append_right hread).trans (List.getElem_replicate _))

end

/-! ### The statements -/

/-- Settles O37: byte j of block k is byte k*w + j of the output, which is data up to n and zeros from there. -/
theorem segmentWritesBlocks : Obligations.SegmentWritesBlocks := by
  unfold Obligations.SegmentWritesBlocks
  intro s h
  refine ⟨s.segmented, h.exec_eq, fun k j hk hj => ?_, h.sameBytesOutside, exec_sameHostSide h.exec_eq⟩
  rw [Nat.add_assoc]
  exact ⟨h.byteAt_data, fun hdata => h.byteAt_padding hdata (blockIndex_lt hk hj)⟩

/-- Settles O38: the padding is less than a block and completes the last one. -/
theorem segmentReportsCounts : Obligations.SegmentReportsCounts := by
  unfold Obligations.SegmentReportsCounts
  intro s h
  have ⟨_, hw, _⟩ := h
  have hlt := padOf_lt (n := s.len) hw
  have hfill := padOf_add_mod (n := s.len) hw
  have hmod := Nat.mod_lt s.len (Nat.pos_of_ne_zero hw)
  refine ⟨s.segmented, padOf s.len s.width, h.exec_eq, h.reports, rfl, padOf_eq_mod hw, ?_, ?_⟩ <;>
    split at hfill <;> omega

/-- Settles O39: a multiple of the width is its own padded length. -/
theorem segmentNoExtraBlock : Obligations.SegmentNoExtraBlock := by
  unfold Obligations.SegmentNoExtraBlock
  intro s h hmod
  have ⟨_, hw, _⟩ := h
  have houtside := h.sameBytesOutside
  rw [paddedLen_of_mod_eq_zero hw hmod] at houtside
  exact ⟨s.segmented, h.exec_eq, h.reports_of_mod_eq_zero hmod, houtside⟩

/-- Settles O40: with n = 0 both ranges are empty, so every check passes, and the output is empty too. -/
theorem segmentEmptyInput : Obligations.SegmentEmptyInput := by
  unfold Obligations.SegmentEmptyInput
  intro s hgood hw hlen
  have hmod : s.len % s.width = 0 := by rw [hlen, Nat.zero_mod]
  have hpadded : paddedLen s.len s.width = 0 := (paddedLen_of_mod_eq_zero hw hmod).trans hlen
  have h : s.segmentRuns := ⟨hgood, hw, .inl hlen, .inl hpadded, fun ⟨hpos, _⟩ => absurd hlen hpos.ne'⟩
  have hreports := h.reports_of_mod_eq_zero hmod
  rw [hlen, Nat.zero_div] at hreports
  have hempty : s.segmentOutput = [] :=
    List.eq_nil_of_length_eq_zero ((State.length_segmentOutput hw).trans hpadded)
  refine ⟨s.segmented, h.exec_eq, hreports, ?_, exec_sameHostSide h.exec_eq⟩
  rw [h.mem_eq, hempty, Memory.writeList]

/-- Settles O41: in place the overlap check is not made, and the output starts where the data stands. -/
theorem segmentInPlace : Obligations.SegmentInPlace := by
  unfold Obligations.SegmentInPlace
  intro s hgood hw _ hplace hsrc hdst
  have h : s.segmentRuns := ⟨hgood, hw, hsrc, hdst, fun _ => hplace⟩
  obtain ⟨-, -, -, -, -, -, hcode, -⟩ := h.reports
  refine ⟨s.segmented, h.exec_eq, hcode, fun x b hge hlt hb => ?_, fun x hge hlt => ?_⟩
  · obtain ⟨i, rfl⟩ := Nat.exists_eq_add_of_le hge
    obtain ⟨c, hread, hwritten⟩ := h.byteAt_data (i := i) (by omega)
    rw [hplace] at hread
    rw [hwritten, hread b hb]
  · obtain ⟨i, rfl⟩ := Nat.exists_eq_add_of_le hge
    rw [Nat.add_assoc]
    exact h.byteAt_padding (Nat.le_add_right _ _) (by omega)

end Sys2Proof.Machine
end

section
/-! The digits of bytes: the two digit tables, and that writing bytes as hex text and reading hex text as bytes undo each other (42_hex_codec.md R160 to R162, R173, R175). -/

namespace Sys2Proof.Machine

/-! ### One digit -/

/-- Settles O44: the table of `HEXVAL` row by row, where subtracting the row's first character does not wrap; the
other two parts are finite. -/
theorem hexDigitTables : Obligations.HexDigitTables := by
  unfold Obligations.HexDigitTables
  refine ⟨by decide, fun c => ?_, by decide⟩
  simp only [hexVal, BitVec.le_def]
  refine ite_congr rfl (fun h => ?_) fun _ => ite_congr rfl (fun h => ?_) fun _ =>
    ite_congr rfl (fun h => ?_) fun _ => rfl
  all_goals
    congr 1
    bv_omega

/-- An upper-case hex digit made lower-case; every other character stays (R175). -/
def lowerDigit (c : Byte) : Byte := if 0x41 ≤ c ∧ c ≤ 0x46 then c + 0x20 else c

/-- Writing the value of a digit gives the digit in lower case: each row of `HEXVAL` is undone by its row of `HEXLC`. -/
theorem hexLc_of_hexVal {c : Byte} {v : Nibble} (h : hexVal c = some v) : hexLc v = lowerDigit c := by
  simp only [hexVal] at h
  split at h
  next hc =>
    obtain rfl := Option.some.inj h
    rw [hexLc, if_pos (by bv_omega), lowerDigit, if_neg (by bv_omega)]
    bv_omega
  next =>
    split at h
    next hc =>
      obtain rfl := Option.some.inj h
      rw [hexLc, if_neg (by bv_omega), lowerDigit, if_pos hc]
      bv_omega
    next hupper =>
      obtain ⟨hc, hv⟩ := Option.ite_none_right_eq_some.1 h
      obtain rfl := Option.some.inj hv
      rw [hexLc, if_neg (by bv_omega), lowerDigit, if_neg hupper]
      bv_omega

/-- A letter `A` to `F` and the same letter in lower case have one value (R173). -/
theorem hexVal_add_of_upper {c : Byte} (hA : 0x41 ≤ c) (hF : c ≤ 0x46) : hexVal c = hexVal (c + 0x20) := by
  rw [hexVal, if_neg (by bv_omega), if_pos ⟨hA, hF⟩, hexVal, if_neg (by bv_omega), if_neg (by bv_omega),
    if_pos (by constructor <;> bv_omega)]
  congr 1
  bv_omega

/-! ### The digits of a byte sequence -/

/-- The digit values of a byte sequence, the high nibble of each byte first (R162). -/
def nibbles : List Byte → List Nibble
  | [] => []
  | b :: bs => b.extractLsb' 4 4 :: b.extractLsb' 0 4 :: nibbles bs

/-- The text of a byte sequence is that of its digit values. -/
theorem hexText_eq_map (bs : List Byte) : hexText bs = (nibbles bs).map hexLc := by
  induction bs with
  | nil => rfl
  | cons b bs ih => rw [hexText, nibbles, ih, List.map_cons, List.map_cons]

/-- A byte is its high nibble followed by its low nibble. -/
theorem append_nibbles (b : Byte) : b.extractLsb' 4 4 ++ b.extractLsb' 0 4 = b :=
  (BitVec.extractLsb'_append_extractLsb'_eq_extractLsb' rfl).trans BitVec.extractLsb'_eq_self

/-- Pairing the digit values of a byte sequence gives it back. -/
theorem pairDigits_nibbles (bs : List Byte) : pairDigits (nibbles bs) = bs := by
  induction bs with
  | nil => rfl
  | cons b bs ih => rw [nibbles, pairDigits, ih, append_nibbles]

/-- An even number of digit values are those of the bytes they pair up to. -/
theorem nibbles_pairDigits {vs : List Nibble} (h : vs.length % 2 = 0) : nibbles (pairDigits vs) = vs := by
  induction vs using pairDigits.induct with
  | case1 hi lo vs ih =>
    have heven : vs.length % 2 = 0 := by
      rw [List.length_cons, List.length_cons] at h
      omega
    rw [pairDigits, nibbles, ih heven, BitVec.extractLsb'_append_eq_left, BitVec.extractLsb'_append_eq_right]
  | case2 v => simp at h
  | case3 => rfl

/-- The encoder's text of digit values is accepted, with these values. -/
theorem digitValues_map_hexLc (i : Nat) (vs : List Nibble) : digitValues i (vs.map hexLc) = .ok vs := by
  rw [digitValues_ok_iff, List.map_map]
  exact List.map_congr_left fun v _ => hexVal_hexLc v

/-- The text of a byte sequence is accepted, with the byte sequence's digit values. -/
theorem digitValues_hexText (i : Nat) (bs : List Byte) : digitValues i (hexText bs) = .ok (nibbles bs) := by
  rw [hexText_eq_map, digitValues_map_hexLc]

/-- The text of a byte sequence determines it: decoding gives it back (R173). -/
theorem hexText_injective : Function.Injective hexText := by
  intro x y h
  have hdigits : digitValues 0 (hexText x) = digitValues 0 (hexText y) := congrArg _ h
  rw [digitValues_hexText, digitValues_hexText] at hdigits
  rw [← pairDigits_nibbles x, Except.ok.inj hdigits, pairDigits_nibbles]

/-- Encoding the bytes that an even number of digit values pair up to writes these digits. -/
theorem hexText_pairDigits {vs : List Nibble} (h : vs.length % 2 = 0) :
    hexText (pairDigits vs) = vs.map hexLc := by
  rw [hexText_eq_map, nibbles_pairDigits h]

/-- Writing the values of an accepted text as digits gives the text in lower case. -/
theorem map_hexLc_of_digitValues {i : Nat} {cs : List Byte} {vs : List Nibble} (h : digitValues i cs = .ok vs) :
    vs.map hexLc = cs.map lowerDigit := by
  rw [digitValues_ok_iff] at h
  induction cs generalizing vs with
  | nil => rw [List.map_eq_nil_iff.1 h.symm, List.map_nil, List.map_nil]
  | cons c cs ih =>
    cases vs with
    | nil => cases h
    | cons v vs =>
      obtain ⟨hc, hcs⟩ := List.cons.inj h
      rw [List.map_cons, List.map_cons, hexLc_of_hexVal hc, ih hcs]

/-! ### Character by character -/

/-- Character j of an accepted text has digit value j. -/
theorem digitValues_getElem? {i : Nat} {cs : List Byte} {vs : List Nibble} (h : digitValues i cs = .ok vs) (j : Nat) :
    cs[j]?.bind hexVal = vs[j]? := by
  have hj : (cs.map hexVal)[j]? = (vs.map some)[j]? := congrArg (·[j]?) (digitValues_ok_iff.1 h)
  rw [List.getElem?_map, List.getElem?_map] at hj
  calc cs[j]?.bind hexVal = (cs[j]?.map hexVal).bind id := by rw [Option.bind_map, Function.id_comp]
    _ = (vs[j]?.map some).bind id := by rw [hj]
    _ = vs[j]? := by rw [Option.bind_map, Function.id_comp, Option.bind_fun_some]

/-- A text of digits is accepted. -/
theorem exists_digitValues {cs : List Byte} (h : ∀ c ∈ cs, ∃ v, hexVal c = some v) (i : Nat) :
    ∃ vs, digitValues i cs = .ok vs := by
  cases hd : digitValues i cs with
  | ok vs => exact ⟨vs, rfl⟩
  | error j =>
    obtain ⟨p, -, ⟨c, hc, hnone⟩, -⟩ := digitValues_error_iff.1 hd
    obtain ⟨v, hv⟩ := h c (List.mem_of_getElem? hc)
    rw [hnone] at hv
    cases hv

/-- Digits 2j and 2j + 1 give byte j (R170). -/
theorem pairDigits_getElem? {vs : List Nibble} {j : Nat} {hi lo : Nibble} (hhi : vs[2 * j]? = some hi)
    (hlo : vs[2 * j + 1]? = some lo) : (pairDigits vs)[j]? = some (hi ++ lo) := by
  induction vs using pairDigits.induct generalizing j with
  | case1 hi' lo' vs ih =>
    cases j with
    | zero =>
      cases hhi
      cases hlo
      rfl
    | succ j => exact ih hhi hlo
  | case2 v => cases hlo
  | case3 => cases hlo

/-- Characters 2i and 2i + 1 of a text are the digits of the high and the low nibble of byte i (R162). -/
theorem hexText_getElem? {bs : List Byte} {i : Nat} {b : Byte} (h : bs[i]? = some b) :
    (hexText bs)[2 * i]? = some (hexLc (b.extractLsb' 4 4)) ∧
    (hexText bs)[2 * i + 1]? = some (hexLc (b.extractLsb' 0 4)) := by
  induction bs generalizing i with
  | nil => cases h
  | cons c bs ih =>
    cases i with
    | zero =>
      cases h
      exact ⟨rfl, rfl⟩
    | succ i => exact ih h

/-! ### The statements -/

/-- Settles O54: the digit tables, the texts "A" and "a", and decoding after encoding. -/
theorem hexCaseInsensitive : Obligations.HexCaseInsensitive := by
  unfold Obligations.HexCaseInsensitive
  exact ⟨fun _ => hexVal_add_of_upper, ⟨[0x41], [0x61], by decide, [10], rfl, rfl⟩, hexText_injective,
    fun x => ⟨nibbles x, digitValues_hexText 0 x, pairDigits_nibbles x⟩⟩

/-- Settles O55: an even number of digits are those of the bytes they pair up to, so encoding these bytes
writes the same digits, in lower case. -/
theorem hexTextLowercase : Obligations.HexTextLowercase := by
  unfold Obligations.HexTextLowercase
  constructor
  · intro p vs heven hvs
    rw [hexText_pairDigits (by rwa [digitValues_length hvs])]
    exact map_hexLc_of_digitValues hvs
  · intro p heven hdigits
    obtain ⟨vs, rfl⟩ : p ∈ Set.range (List.map hexLc) := by
      rw [Set.range_list_map]
      exact fun c hc => (hdigits c hc).imp fun _ => Eq.symm
    exact ⟨pairDigits vs, hexText_pairDigits (by rwa [List.length_map] at heven)⟩

end Sys2Proof.Machine
end

section
/-! HEX_ENCODE and HEX_DECODE: their errors in their order, and what a success writes and reports (42_hex_codec.md R163 to R176). -/

namespace Sys2Proof.Machine

/-! ### The errors -/

section

variable {s : State}

/-- HEX_ENCODE checks its source range first. -/
theorem exec_hexEncode_rangeSrc (hsrc : ¬ inRange s.size s.src s.len) :
    exec .hexEncode s = .next (s.completeErr .rangeSrc 0) := if_pos hsrc

/-- With a legal source range, HEX_ENCODE checks the range of its text. -/
theorem exec_hexEncode_rangeDst (hsrc : inRange s.size s.src s.len) (hdst : ¬ inRange s.size s.dst (2 * s.len)) :
    exec .hexEncode s = .next (s.completeErr .rangeDst 0) :=
  (if_neg (not_not.2 hsrc)).trans (if_pos hdst)

/-- With both ranges legal, HEX_ENCODE checks that they do not overlap. -/
theorem exec_hexEncode_overlap (hsrc : inRange s.size s.src s.len) (hdst : inRange s.size s.dst (2 * s.len))
    (hover : overlaps s.src s.len s.dst (2 * s.len)) : exec .hexEncode s = .next (s.completeErr .overlap 0) :=
  (if_neg (not_not.2 hsrc)).trans <| (if_neg (not_not.2 hdst)).trans (if_pos hover)

/-- HEX_DECODE checks the length first. -/
theorem exec_hexDecode_oddLength (hodd : s.len % 2 = 1) :
    exec .hexDecode s = .next (s.completeErr .decodeOddLength s.latch.srcLen) := if_pos hodd

variable (heven : ¬ s.len % 2 = 1)
include heven

/-- With an even length, HEX_DECODE checks its source range. -/
theorem exec_hexDecode_rangeSrc (hsrc : ¬ inRange s.size s.src s.len) :
    exec .hexDecode s = .next (s.completeErr .rangeSrc 0) :=
  (if_neg heven).trans (if_pos hsrc)

/-- With a legal source range, HEX_DECODE checks the range of its bytes. -/
theorem exec_hexDecode_rangeDst (hsrc : inRange s.size s.src s.len) (hdst : ¬ inRange s.size s.dst (s.len / 2)) :
    exec .hexDecode s = .next (s.completeErr .rangeDst 0) :=
  (if_neg heven).trans <| (if_neg (not_not.2 hsrc)).trans (if_pos hdst)

/-- With both ranges legal, HEX_DECODE checks that they do not overlap. -/
theorem exec_hexDecode_overlap (hsrc : inRange s.size s.src s.len) (hdst : inRange s.size s.dst (s.len / 2))
    (hover : overlaps s.src s.len s.dst (s.len / 2)) : exec .hexDecode s = .next (s.completeErr .overlap 0) :=
  (if_neg heven).trans <| (if_neg (not_not.2 hsrc)).trans <| (if_neg (not_not.2 hdst)).trans (if_pos hover)

end

/-- Settles O47, from HEX_ENCODE's answer at each of its checks; a text of 2^32 characters or more is in no legal
range. -/
theorem hexEncodeErrorOrder : Obligations.HexEncodeErrorOrder := by
  unfold Obligations.HexEncodeErrorOrder
  intro s hgood
  have hfails (code : ErrCode) := State.completeErr_good hgood code 0
  refine ⟨fun hsrc => ⟨_, exec_hexEncode_rangeSrc hsrc, hfails .rangeSrc⟩, fun hsrc hlong => ?_,
    fun hsrc hdst hover => ⟨_, exec_hexEncode_overlap hsrc hdst hover, hfails .overlap⟩⟩
  have hdst : ¬ inRange s.size s.dst (2 * s.len) := fun hfits => by
    have hlt := s.lt_of_inRange hfits
    exact hlong.elim (fun h => h hfits) fun h => by omega
  exact ⟨_, exec_hexEncode_rangeDst hsrc hdst, hfails .rangeDst⟩

/-- Settles O49: the length is checked first, and the failed completion of a good run changes nothing else. -/
theorem hexDecodeOddLength : Obligations.HexDecodeOddLength := by
  unfold Obligations.HexDecodeOddLength
  intro s hgood hodd
  exact ⟨_, exec_hexDecode_oddLength hodd, State.completeErr_good hgood .decodeOddLength s.latch.srcLen⟩

/-- Settles O52, from HEX_DECODE's answer at each of its checks after the length; a text that is not empty and its
bytes overlap when they start at one address. -/
theorem hexDecodeErrorOrder : Obligations.HexDecodeErrorOrder := by
  unfold Obligations.HexDecodeErrorOrder
  intro s hgood heven
  have heven' : ¬ s.len % 2 = 1 := by omega
  have hfails (code : ErrCode) := State.completeErr_good hgood code 0
  refine ⟨fun hsrc => ⟨_, exec_hexDecode_rangeSrc heven' hsrc, hfails .rangeSrc⟩,
    fun hsrc hdst => ⟨_, exec_hexDecode_rangeDst heven' hsrc hdst, hfails .rangeDst⟩, fun hsrc hdst hshared => ?_⟩
  have hover : overlaps s.src s.len s.dst (s.len / 2) :=
    hshared.elim id fun ⟨hplace, hpos⟩ => ⟨hpos, by omega, by omega, by omega⟩
  exact ⟨_, exec_hexDecode_overlap heven' hsrc hdst hover, hfails .overlap⟩

/-! ### The source as read, and a success -/

/-- What the engine reads of a source byte that holds a value is that value (R63). -/
theorem State.sourceBytes_getElem? {s : State} {i : Nat} {b : Byte} (hi : i < s.len)
    (hb : s.byteAt (s.src + i) = some b) : s.sourceBytes[i]? = some b :=
  Memory.readList_getElem? _ _ _ _ hi hb

/-- What can be computed from a byte of memory in the source can be computed from the byte as read. -/
theorem State.sourceBytes_bind {s : State} {i : Nat} {f : Byte → Option Nibble} {v : Nibble} (hi : i < s.len)
    (hv : (s.byteAt (s.src + i)).bind f = some v) : s.sourceBytes[i]?.bind f = some v := by
  obtain ⟨c, hheld, -⟩ := Option.bind_eq_some_iff.1 hv
  rwa [State.sourceBytes_getElem? hi hheld, ← hheld]

section

variable {s : State} {P : Byte → Prop} (h : ∀ i < s.len, ∃ c, s.byteAt (s.src + i) = some c ∧ P c)
include h

/-- What holds of every byte of a source without unspecified bytes holds of every byte read. -/
theorem State.forall_sourceBytes : ∀ c ∈ s.sourceBytes, P c := by
  intro c hc
  obtain ⟨i, hread⟩ := List.mem_iff_getElem?.1 hc
  have hi : i < s.len := s.sourceBytes_length ▸ (List.getElem?_eq_some_iff.1 hread).1
  obtain ⟨c', hheld, hP⟩ := h i hi
  cases hread.symm.trans (State.sourceBytes_getElem? hi hheld)
  exact hP

/-- Reading a source without unspecified bytes takes no draw. -/
theorem State.afterSource_draws_of_held : s.afterSource.draws = s.draws :=
  Memory.readList_draws _ _ _ _ fun i hi =>
    have ⟨_, hheld, _⟩ := h i hi
    Option.isSome_of_eq_some hheld

end

section

variable {s : State} (hgood : s.good) (bytes : List Byte) (out bc pad : Nat)
include hgood

/-- In a good run a success stores the bytes it writes from `DST_ADDR`. -/
theorem Ending.mem_state_succeeds :
    ((Ending.succeeds bytes out bc pad).state s).mem = s.mem.writeList s.dst bytes :=
  congrArg State.mem (State.completeOk_good (s := s.afterSource.writeDest bytes) hgood out bc pad)

/-- In a good run a success takes no draw but those of reading the source. -/
theorem Ending.draws_state_succeeds : ((Ending.succeeds bytes out bc pad).state s).draws = s.afterSource.draws := by
  rw [Ending.state, State.completeOk_good (s := s.afterSource.writeDest bytes) hgood]
  rfl

/-- In a good run a success changes no byte outside the bytes it writes. -/
theorem Ending.sameBytesOutside_state_succeeds :
    s.sameBytesOutside ((Ending.succeeds bytes out bc pad).state s) s.dst bytes.length := by
  intro x hx
  rw [State.byteAt, Ending.mem_state_succeeds hgood]
  exact Memory.read_writeList_outside s.mem bytes hx

end

/-- In a good run a success leaves byte j of what it writes at `DST_ADDR` + j. -/
theorem Ending.byteAt_state_succeeds_of_getElem? {s : State} (hgood : s.good) {bytes : List Byte} (out bc pad : Nat)
    {j : Nat} {b : Byte} (hj : bytes[j]? = some b) :
    ((Ending.succeeds bytes out bc pad).state s).byteAt (s.dst + j) = some b := by
  obtain ⟨hlt, rfl⟩ := List.getElem?_eq_some_iff.1 hj
  exact Ending.byteAt_state_succeeds hgood bytes out bc pad hlt

/-! ### HEX_ENCODE -/

/-- The state after a successful HEX_ENCODE. -/
def State.hexEncoded (s : State) : State := (Ending.succeeds (hexText s.sourceBytes) (2 * s.len) 0 0).state s

section

variable {s : State} (h : s.hexEncodeRuns)
include h

/-- HEX_ENCODE succeeds when its checks pass. -/
theorem State.hexEncodeRuns.exec_eq : exec .hexEncode s = .next s.hexEncoded := by
  obtain ⟨-, hsrc, hdst, hover⟩ := h
  exact (if_neg (not_not.2 hsrc)).trans <| (if_neg (not_not.2 hdst)).trans (if_neg hover)

/-- A successful HEX_ENCODE reports the length of its text whole: it fits in 32 bits (R164, R166). -/
theorem State.hexEncodeRuns.reports : s.hexEncoded.reports false (2 * s.len) 0 0 .noError 0 := by
  obtain ⟨hgood, -, hdst, -⟩ := h
  exact State.completeOk_reports (s := s.afterSource.writeDest (hexText s.sourceBytes)) hgood (s.lt_of_inRange hdst)
    (by decide) (by decide)

/-- A successful HEX_ENCODE stores the text of its source from `DST_ADDR`. -/
theorem State.hexEncodeRuns.mem_eq : s.hexEncoded.mem = s.mem.writeList s.dst (hexText s.sourceBytes) := by
  obtain ⟨hgood, -⟩ := h
  exact Ending.mem_state_succeeds hgood _ _ _ _

/-- A successful HEX_ENCODE changes no byte outside its text. -/
theorem State.hexEncodeRuns.sameBytesOutside : s.sameBytesOutside s.hexEncoded s.dst (2 * s.len) := by
  obtain ⟨hgood, -⟩ := h
  have houtside := Ending.sameBytesOutside_state_succeeds hgood (hexText s.sourceBytes) (2 * s.len) 0 0
  rwa [hexText_length, State.sourceBytes_length] at houtside

/-- The text holds the digits of source byte i at 2i and 2i + 1 (R162). -/
theorem State.hexEncodeRuns.byteAt_digits {i : Nat} (hi : i < s.sourceBytes.length) :
    s.hexEncoded.byteAt (s.dst + 2 * i) = some (hexLc (s.sourceBytes[i].extractLsb' 4 4)) ∧
    s.hexEncoded.byteAt (s.dst + 2 * i + 1) = some (hexLc (s.sourceBytes[i].extractLsb' 0 4)) := by
  obtain ⟨hgood, -⟩ := h
  obtain ⟨hhigh, hlow⟩ := hexText_getElem? (List.getElem?_eq_getElem hi)
  exact ⟨Ending.byteAt_state_succeeds_of_getElem? hgood _ _ _ hhigh,
    Ending.byteAt_state_succeeds_of_getElem? hgood _ _ _ hlow⟩

end

/-- Settles O45: the engine reads each source byte as it may be read, and the text it writes holds its digits. -/
theorem hexEncodeWritesText : Obligations.HexEncodeWritesText := by
  unfold Obligations.HexEncodeWritesText
  intro s h
  refine ⟨s.hexEncoded, h.exec_eq, h.reports, fun i hi => ?_, h.sameBytesOutside, exec_sameHostSide h.exec_eq⟩
  have hread : i < s.sourceBytes.length := by rwa [State.sourceBytes_length]
  exact ⟨s.sourceBytes[i], s.mayRead_sourceBytes hread, h.byteAt_digits hread⟩

/-- Settles O46: with n = 0 both ranges are empty, so every check passes, and the text is empty too. -/
theorem hexEncodeEmptyInput : Obligations.HexEncodeEmptyInput := by
  unfold Obligations.HexEncodeEmptyInput
  intro s hgood hlen
  have h : s.hexEncodeRuns :=
    ⟨hgood, .inl hlen, .inl (by rw [hlen]), fun ⟨hpos, _⟩ => absurd hlen hpos.ne'⟩
  have hreports := h.reports
  rw [hlen] at hreports
  have hempty : s.sourceBytes = [] := List.eq_nil_of_length_eq_zero (s.sourceBytes_length.trans hlen)
  refine ⟨s.hexEncoded, h.exec_eq, hreports, ?_, exec_sameHostSide h.exec_eq⟩
  rw [h.mem_eq, hempty, hexText, Memory.writeList]

/-! ### HEX_DECODE -/

/-- How HEX_DECODE of n characters ends by the check of its text: at the first bad character, or with the bytes of
the digit values (R170, R172). -/
def hexDecodeEnding (n : Nat) : Except Nat (List Nibble) → Ending
  | .error i => .failsRead .decodeBadChar (BitVec.ofNat 32 i)
  | .ok vs => .succeeds (pairDigits vs) (n / 2) 0 0

/-- The state after a successful HEX_DECODE of a text with these digit values. -/
def State.hexDecoded (s : State) (vs : List Nibble) : State := (hexDecodeEnding s.len (.ok vs)).state s

section

variable {s : State} (h : s.hexDecodeReads)
include h

/-- HEX_DECODE ends by the check of its text when the checks before it pass. -/
theorem State.hexDecodeReads.exec_eq :
    exec .hexDecode s = .next ((hexDecodeEnding s.len (digitValues 0 s.sourceBytes)).state s) := by
  obtain ⟨-, heven, hsrc, hdst, hover⟩ := h
  refine (if_neg (by omega)).trans <| (if_neg (not_not.2 hsrc)).trans <| (if_neg (not_not.2 hdst)).trans <|
    (if_neg hover).trans ?_
  cases digitValues 0 s.sourceBytes <;> rfl

/-- A text of digits is decoded. -/
theorem State.hexDecodeReads.exec_accepted {vs : List Nibble} (htext : digitValues 0 s.sourceBytes = .ok vs) :
    exec .hexDecode s = .next (s.hexDecoded vs) := by
  rw [h.exec_eq, htext, State.hexDecoded]

/-- A successful HEX_DECODE reports half the length of the text. -/
theorem State.hexDecodeReads.reports (vs : List Nibble) :
    (s.hexDecoded vs).reports false (s.len / 2) 0 0 .noError 0 := by
  obtain ⟨hgood, -, -, hdst, -⟩ := h
  exact State.completeOk_reports (s := s.afterSource.writeDest (pairDigits vs)) hgood (s.lt_of_inRange hdst)
    (by decide) (by decide)

/-- A successful HEX_DECODE changes no byte outside its output. -/
theorem State.hexDecodeReads.sameBytesOutside {vs : List Nibble} (htext : digitValues 0 s.sourceBytes = .ok vs) :
    s.sameBytesOutside (s.hexDecoded vs) s.dst (s.len / 2) := by
  obtain ⟨hgood, -⟩ := h
  have houtside := Ending.sameBytesOutside_state_succeeds hgood (pairDigits vs) (s.len / 2) 0 0
  rwa [pairDigits_length, digitValues_length htext, State.sourceBytes_length] at houtside

/-- Characters 2j and 2j + 1 of an accepted text give output byte j (R170). -/
theorem State.hexDecodeReads.byteAt_pair {vs : List Nibble} (htext : digitValues 0 s.sourceBytes = .ok vs) {j : Nat}
    {hi lo : Nibble} (hhi : s.sourceBytes[2 * j]?.bind hexVal = some hi)
    (hlo : s.sourceBytes[2 * j + 1]?.bind hexVal = some lo) :
    (s.hexDecoded vs).byteAt (s.dst + j) = some (hi ++ lo) := by
  obtain ⟨hgood, -⟩ := h
  rw [digitValues_getElem? htext] at hhi hlo
  exact Ending.byteAt_state_succeeds_of_getElem? hgood _ _ _ (pairDigits_getElem? hhi hlo)

/-- A text whose first bad character stands at index i fails there; only the draws of reading it are taken. -/
theorem State.hexDecodeReads.badChar {i : Nat} {c : Byte} (hc : s.sourceBytes[i]? = some c) (hbad : hexVal c = none)
    (hbefore : ∀ q < i, ∃ e v, s.sourceBytes[q]? = some e ∧ hexVal e = some v) :
    ∃ t, exec .hexDecode s = .next t ∧
      State.failsAs { s with draws := t.draws } t .decodeBadChar (BitVec.ofNat 32 i) := by
  have htext : digitValues 0 s.sourceBytes = .error i :=
    digitValues_error_iff.2 ⟨i, (Nat.zero_add i).symm, ⟨c, hc, hbad⟩, hbefore⟩
  have ⟨hgood, _⟩ := h
  refine ⟨_, h.exec_eq, ?_⟩
  rw [htext, hexDecodeEnding, Ending.state, State.completeErr_good (s := s.afterSource) hgood]
  rfl

end

/-- Settles O48: reading the text gives the characters the memory holds and draws nothing, and all of them are
digits. -/
theorem hexDecodeWritesBytes : Obligations.HexDecodeWritesBytes := by
  unfold Obligations.HexDecodeWritesBytes
  intro s h hdigits
  have ⟨hgood, heven, _⟩ := h
  have hheld : ∀ i < s.len, ∃ c, s.byteAt (s.src + i) = some c ∧ ∃ v, hexVal c = some v := fun i hi =>
    have ⟨c, v, hc, hv⟩ := hdigits i hi
    ⟨c, hc, v, hv⟩
  obtain ⟨vs, htext⟩ := exists_digitValues (State.forall_sourceBytes hheld) 0
  refine ⟨s.hexDecoded vs, h.exec_accepted htext, h.reports vs, fun j hi lo hj hhi hlo => ?_,
    h.sameBytesOutside htext, exec_sameHostSide (h.exec_accepted htext), ?_⟩
  · exact h.byteAt_pair htext (State.sourceBytes_bind (by omega) hhi) (State.sourceBytes_bind (by omega) hlo)
  · exact (Ending.draws_state_succeeds hgood _ _ _ _).trans (State.afterSource_draws_of_held hheld)

/-- Settles O50: the characters up to index i are read as the memory holds them, so i is the first bad one; an
index of a text fits in `ERR_INFO`. -/
theorem hexDecodeBadChar : Obligations.HexDecodeBadChar := by
  unfold Obligations.HexDecodeBadChar
  intro s i c h hi hheld hbad hbefore
  obtain ⟨t, hexec, hfails⟩ := h.badChar (State.sourceBytes_getElem? hi hheld) hbad fun q hq => by
    obtain ⟨e, v, he, hv⟩ := hbefore q hq
    exact ⟨e, v, State.sourceBytes_getElem? (hq.trans hi) he, hv⟩
  have hinfo : t.regs.errInfo = BitVec.ofNat 32 i := congrArg (·.regs.errInfo) hfails
  refine ⟨t, hexec, hfails, ?_⟩
  rw [hinfo, BitVec.toNat_ofNat]
  exact Nat.mod_eq_of_lt (hi.trans s.latch.srcLen.isLt)

/-- Settles O51: with n = 0 the text is empty, so every check passes, and so are the bytes it gives. -/
theorem hexDecodeEmptyText : Obligations.HexDecodeEmptyText := by
  unfold Obligations.HexDecodeEmptyText
  intro s hgood hlen
  have h : s.hexDecodeReads :=
    ⟨hgood, by rw [hlen], .inl hlen, .inl (by rw [hlen]), fun ⟨hpos, _⟩ => absurd hlen hpos.ne'⟩
  have hempty : s.sourceBytes = [] := List.eq_nil_of_length_eq_zero (s.sourceBytes_length.trans hlen)
  have htext : digitValues 0 s.sourceBytes = .ok [] := by rw [hempty, digitValues]
  have hreports := h.reports []
  rw [hlen] at hreports
  exact ⟨s.hexDecoded [], h.exec_accepted htext, hreports, Ending.mem_state_succeeds hgood _ _ _ _,
    exec_sameHostSide (h.exec_accepted htext)⟩

/-- Settles O53: the text is the one the engine reads, and that text is refused or accepted. -/
theorem hexDecodeFollowsTextRead : Obligations.HexDecodeFollowsTextRead := by
  unfold Obligations.HexDecodeFollowsTextRead
  intro s h
  obtain ⟨t, hexec, -⟩ := exec_cases .hexDecode s
  refine ⟨s.sourceBytes, t, hexec, s.sourceBytes_length, fun i c hc => ?_, exec_sameHostSide hexec,
    fun i c hc hbad hbefore => ?_, fun hall => ?_⟩
  · obtain ⟨hi, rfl⟩ := List.getElem?_eq_some_iff.1 hc
    exact s.mayRead_sourceBytes hi
  · obtain ⟨t', hexec', hfails⟩ := h.badChar hc hbad hbefore
    cases hexec.symm.trans hexec'
    exact hfails
  · obtain ⟨vs, htext⟩ := exists_digitValues hall 0
    cases hexec.symm.trans (h.exec_accepted htext)
    exact ⟨h.reports vs, fun _ _ _ => h.byteAt_pair htext⟩

/-! ### The round trip -/

/-- Settles O56: the second command reads the text the first one wrote, whose digits pair up to the bytes the
first one read. -/
theorem hexRoundTripInMemory : Obligations.HexRoundTripInMemory := by
  unfold Obligations.HexRoundTripInMemory
  intro s t u h hexec hgood hmem hsize hsrc hlen hdst hover
  cases h.exec_eq.symm.trans hexec
  have hsource : u.sourceBytes = hexText s.sourceBytes := by
    have hback := Memory.readList_writeList s.mem s.dst u.draws (hexText s.sourceBytes)
    rw [hexText_length, State.sourceBytes_length, ← h.mem_eq, ← hmem, ← hsrc, ← hlen] at hback
    exact congrArg Prod.fst hback
  have htext : digitValues 0 u.sourceBytes = .ok (nibbles s.sourceBytes) := by
    rw [hsource, digitValues_hexText]
  have hhalf : u.len / 2 = s.len := by omega
  have hreads : u.hexDecodeReads := by
    have ⟨_, _, htextRange, _⟩ := h
    have hsize' : u.size = s.size := congrArg BitVec.toNat (hsize.trans (exec_memSize hexec))
    refine ⟨hgood, by omega, ?_, ?_, ?_⟩
    · rwa [hsrc, hlen, hsize']
    · rwa [hhalf]
    · rwa [hhalf]
  have hreports := hreads.reports (nibbles s.sourceBytes)
  rw [hhalf] at hreports
  refine ⟨u.hexDecoded (nibbles s.sourceBytes), hreads.exec_accepted htext, hreports, fun i hi => ?_⟩
  have hread : i < s.sourceBytes.length := by rwa [State.sourceBytes_length]
  refine ⟨s.sourceBytes[i], s.mayRead_sourceBytes hread, Ending.byteAt_state_succeeds_of_getElem? hgood _ _ _ ?_⟩
  rw [pairDigits_nibbles, List.getElem?_eq_getElem hread]

end Sys2Proof.Machine
end

section
/-! The interrupt, and what a completion of a good run reports: an error that changed no byte, or a success (60_exceptions.md R203, R204, R206). -/

namespace Sys2Proof.Machine

/-! ### The interrupt -/

@[simp] theorem State.irq_setRegs (s : State) (r : Regs) : (s.setRegs r).irq = (r.irqEn && r.done) := rfl

theorem State.irq_of_not_done {s : State} (h : s.regs.done = false) : s.irq = false := by
  rw [State.irq, h, Bool.and_false]

/-- Every completion sets DONE, so it leaves the interrupt equal to `IRQ_EN` (R206). -/
theorem exec_irq {i : Instr} {s t : State} (h : exec i s = .next t) : t.irq = s.regs.irqEn := by
  obtain ⟨-, hdone⟩ := exec_status h
  obtain ⟨hirqEn, -⟩ := exec_sameHostSide h
  rw [State.irq, hdone, hirqEn, Bool.and_true]

theorem Regs.clearStatus_done {v : Word} (hv : v.getLsbD 1 = true) (r : Regs) : (r.clearStatus v).done = false := by
  rw [Regs.clearStatus, hv, Bool.not_true, Bool.and_false]

/-- Writing bit 1 of STATUS acknowledges the interrupt (R206). -/
theorem hostStep_statusWrite_irq {v : Word} (hv : v.getLsbD 1 = true) (s : State) :
    (hostStep (.regWrite 0x04 v) s).irq = false := by
  have hwrite : hostStep (.regWrite 0x04 v) s = s.setRegs (s.regs.clearStatus v) :=
    hostStep_regWrite_offset s .status v
  rw [hwrite]
  exact State.irq_of_not_done (Regs.clearStatus_done hv s.regs)

/-- An issue clears DONE, and the interrupt with it (R120, R206). -/
theorem hostStep_cmdWrite_irq {s : State} (hidle : s.regs.busy = false) (c : Word) :
    (hostStep (.regWrite 0x08 c) s).irq = false := by
  rw [hostStep_cmdWrite_idle hidle]
  exact State.irq_of_not_done rfl

/-- Enabling the interrupt while DONE stands raises it at once (R206). -/
theorem hostStep_ctrlWrite_irq {s : State} (hdone : s.regs.done = true) :
    (hostStep (.regWrite 0x00 1) s).irq = true := by
  have hwrite : hostStep (.regWrite 0x00 1) s = s.setRegs { s.regs with irqEn := true } :=
    (ctrlWrite s 1).2 (by decide)
  rw [hwrite, State.irq_setRegs, hdone, Bool.and_true]

/-- Settles O24: what sets or clears DONE or `IRQ_EN` moves the interrupt, and nothing else counts. -/
theorem interruptLevel : Obligations.InterruptLevel := by
  unfold Obligations.InterruptLevel
  have hmasked (s : State) (hoff : s.regs.irqEn = false) : s.irq = false := by
    rw [State.irq, hoff, Bool.false_and]
  exact ⟨fun _ => rfl, fun _ _ _ => exec_irq, hmasked, fun s _ hv => hostStep_statusWrite_irq hv s,
    fun _ c hidle => hostStep_cmdWrite_irq hidle c, fun _ => ⟨rfl, rfl⟩, fun _ => hostStep_ctrlWrite_irq,
    fun _ _ _ => rfl⟩

/-! ### What a completion reports in a good run -/

/-- The status and results of `complete_err` in a good run (R204). -/
theorem State.completeErr_reports {s : State} (hgood : s.good) (code : ErrCode) (info : Word) :
    (s.completeErr code info).reports true 0 0 0 code info := by
  rw [State.completeErr_good hgood code info]
  exact ⟨rfl, rfl, rfl, rfl, rfl, rfl, rfl, rfl⟩

/-- In a good run `complete_err` changes no byte (R204). -/
theorem State.completeErr_mem {s : State} (hgood : s.good) (code : ErrCode) (info : Word) :
    (s.completeErr code info).mem = s.mem := by
  rw [State.completeErr_good hgood code info]

/-- In a good run an engine step that ends in an error changed no byte, and reports an error code with the three
counts 0. -/
theorem EndsInError.reports {s t : State} (hgood : s.good) (h : EndsInError s t) :
    ∃ code info, code ≠ .noError ∧ t.mem = s.mem ∧ t.reports true 0 0 0 code info := by
  obtain ⟨code, info, hcode, rfl | rfl⟩ := h
  · exact ⟨code, info, hcode, State.completeErr_mem hgood code info, State.completeErr_reports hgood code info⟩
  · exact ⟨code, info, hcode, State.completeErr_mem (s := s.afterSource) hgood code info,
      State.completeErr_reports (s := s.afterSource) hgood code info⟩

/-- In a good run an engine step that ends in a success reports no error and no info (R203). -/
theorem EndsInSuccess.reports {i : Instr} {s t : State} (hgood : s.good) (h : EndsInSuccess i s t) :
    t.regs.errCode = .noError ∧ t.regs.error = false ∧ t.regs.errInfo = 0 := by
  obtain ⟨bytes, bc, pad, rfl, -⟩ := h
  rw [State.completeOk_good (s := s.afterSource.writeDest bytes) hgood]
  exact ⟨rfl, rfl, rfl⟩

/-- Settles O32: the code tells the two ways to end apart, an error by R204 and a success by R203. -/
theorem errorsWriteNothing : Obligations.ErrorsWriteNothing := by
  unfold Obligations.ErrorsWriteNothing
  intro i s t hgood hexec
  rcases exec_next_cases hexec with herr | hsucc
  · obtain ⟨code, info, hcode, hmem, hreports⟩ := herr.reports hgood
    have ⟨_, _, _, _, _, _, hcode', hinfo⟩ := hreports
    rw [hcode', hinfo]
    exact ⟨fun _ => ⟨hmem, exec_sameHostSide hexec, hreports⟩, fun hok => absurd hok hcode⟩
  · obtain ⟨hok, herror, hinfo⟩ := hsucc.reports hgood
    exact ⟨fun hne => absurd hok hne, fun _ => ⟨herror, hinfo⟩⟩

end Sys2Proof.Machine
end

section
/-! The two resets and the hazard ranges (70_reset_and_hazards.md R230 to R232, R241). -/

namespace Sys2Proof.Machine

/-! ### Hard reset -/

@[simp] theorem hostStep_hardReset (s : State) : hostStep .hardReset s = s.hardReset := rfl

/-- Settles O12, from hard reset field by field: the registers are those of power-on, and no byte is listed. -/
theorem hardResetValues : Obligations.HardResetValues := by
  unfold Obligations.HardResetValues
  intro s
  rw [hostStep_hardReset, State.hardReset_eq]
  exact ⟨Regs.reset_read .blockWidth, fun r hr => (Regs.reset_read r).trans (if_neg hr), fun _ => rfl, rfl, rfl⟩

/-! ### Soft reset -/

/-- Soft reset makes a busy block's destination range unspecified, and no other byte (R231, R232). -/
theorem State.softReset_byteAt (s : State) (x : Nat) :
    s.softReset.byteAt x =
      if s.regs.busy = true ∧ s.dst ≤ x ∧ x < s.dst + s.latch.outLen then none else s.byteAt x := by
  cases hbusy : s.regs.busy with
  | true =>
    rw [State.softReset_busy hbusy, State.byteAt, Memory.read_forget]
    simp [State.byteAt]
  | false =>
    rw [State.softReset_idle hbusy]
    simp [State.byteAt]

/-- Soft reset puts the registers to their reset values and, besides them, changes memory at most (R231). -/
theorem State.softReset_frame (s : State) :
    s.softReset = { s with regs := Regs.reset, mem := s.softReset.mem } := by
  cases hbusy : s.regs.busy with
  | true => rw [State.softReset_busy hbusy]
  | false => rw [State.softReset_idle hbusy]

/-- Settles O14: a CTRL write with bit 1 is the soft reset. -/
theorem softResetAborts : Obligations.SoftResetAborts := by
  unfold Obligations.SoftResetAborts
  intro s v hv
  have hreset : hostStep (.regWrite 0x00 v) s = s.softReset := (ctrlWrite s v).1 hv
  rw [hreset]
  have hframe := s.softReset_frame
  have hlatch : s.softReset.latch = s.latch := by rw [hframe]
  refine ⟨congrArg State.regs hframe, s.softReset_byteAt, ?_⟩
  rw [hlatch]
  exact hframe

/-! ### The hazard ranges -/

/-- `out_len(L)`, by the latched command word (R241). -/
theorem Latch.outLen_eq (l : Latch) :
    l.outLen =
      if l.cmd = 1 then (if l.width.toNat = 0 then 0 else paddedLen l.srcLen.toNat l.width.toNat)
      else if l.cmd = 2 then 2 * l.srcLen.toNat
      else if l.cmd = 3 then (if l.srcLen.toNat % 2 = 1 then 0 else l.srcLen.toNat / 2)
      else 0 := by
  rw [Latch.outLen]
  by_cases h1 : l.cmd = 1
  · rw [if_pos h1, h1]
    rfl
  rw [if_neg h1]
  by_cases h2 : l.cmd = 2
  · rw [if_pos h2, h2]
    rfl
  rw [if_neg h2]
  by_cases h3 : l.cmd = 3
  · rw [if_pos h3, h3]
    rfl
  rw [if_neg h3, decode_other h1 h2 h3, outLenOf]

/-- Settles O26: the source range is R241's as it stands, and the destination range has `out_len(L)` bytes. -/
theorem hazardRangesFromLatch : Obligations.HazardRangesFromLatch := by
  unfold Obligations.HazardRangesFromLatch
  intro s a
  refine ⟨Iff.rfl, ?_⟩
  rw [State.inDstRange, inBytes, Latch.outLen_eq, and_comm (a := a < s.dst + _)]
  rfl

end Sys2Proof.Machine
end
